-- ==== Sys2Proof/Word.lean ====
section
/-! DEFINITION. The byte of the display core (00_scope.md R14). -/

namespace Sys2Proof

/-- A byte: 8 bits, bit 0 the least significant (R14). A segment pattern (R75), a data byte (R77) and a lane result
of the accelerator (R79) are bytes. -/
abbrev Byte := BitVec 8

end Sys2Proof
end

