-- ==== Sys2Proof/Config.lean ====
section
/-! DEFINITION. What an implementation fixes (00_scope.md section 4): the segment constants, the glyphs and the two
candidate tables of 40_encoder.md, the configuration record with its legality, the turns the environment gives, and
the model's one free value. -/

namespace Sys2Proof

/-- The eight segments of a digit (R9, R75). -/
inductive Segment where
  | a | b | c | d | e | f | g | dp
deriving DecidableEq, Repr

/-- `SEG_A` .. `SEG_G` and `DP_BIT`: the mask of a segment in a segment pattern (R9, R75). -/
def Segment.mask : Segment → Byte
  | .a  => 0x01
  | .b  => 0x02
  | .c  => 0x04
  | .d  => 0x08
  | .e  => 0x10
  | .f  => 0x20
  | .g  => 0x40
  | .dp => 0x80

/-- `DP_BIT`, "the decimal-point segment bit" (R9). -/
def dpBit : Byte := Segment.dp.mask

/-- `IDX_MASK`, the lanes' and-mask (R32, 90_conflicts.md C2). -/
def idxMask : Byte := 0x0F

/-- The pattern with exactly the listed segments set (R76: patterns are combined by or). -/
def patternOf (lit : List Segment) : Byte := lit.foldl (fun p s => p ||| s.mask) 0x00

/-- For each hex digit, the lit segments of its conventional glyph (R102), first, then the variants R102 names: 6
without A, 9 without D, 7 with F, C as lower-case c.
PRESUMED (log 12): general knowledge, as R102 itself says. Read by the legality of a table alone.
Unsafe for a real table of another shape. -/
def glyphs : List (List (List Segment)) :=
  [ [[.a, .b, .c, .d, .e, .f]],
    [[.b, .c]],
    [[.a, .b, .d, .e, .g]],
    [[.a, .b, .c, .d, .g]],
    [[.b, .c, .f, .g]],
    [[.a, .c, .d, .f, .g]],
    [[.a, .c, .d, .e, .f, .g], [.c, .d, .e, .f, .g]],
    [[.a, .b, .c], [.a, .b, .c, .f]],
    [[.a, .b, .c, .d, .e, .f, .g]],
    [[.a, .b, .c, .d, .f, .g], [.a, .b, .c, .f, .g]],
    [[.a, .b, .c, .e, .f, .g]],
    [[.c, .d, .e, .f, .g]],
    [[.a, .d, .e, .f], [.d, .e, .g]],
    [[.b, .c, .d, .e, .g]],
    [[.a, .d, .e, .f, .g]],
    [[.a, .e, .f, .g]] ]

/-- The default table `SEG_TABLE_AH`, sixteen bytes, entry d first for d = 0 (R103). -/
def segTableAH : List Byte :=
  [0x3F, 0x06, 0x5B, 0x4F, 0x66, 0x6D, 0x7D, 0x07, 0x7F, 0x6F, 0x77, 0x7C, 0x39, 0x5E, 0x79, 0x71]

/-- The other candidate, `SEG_TABLE_AL7[d] = 0x7F & ~SEG_TABLE_AH[d]` (R104). -/
def segTableAL7 : List Byte := segTableAH.map (fun p => 0x7F &&& ~~~p)

/-- R101 item 2, read through `LIT_LEVEL` and the glyphs of R102: the lit segments of every entry are one of the
glyphs of its digit.
DESIGN CHOICE (log 12): the variants of R102, of which the source rules none in or out, are admitted. Safe. -/
def showsGlyphs (litLevel : Bool) (segTable : List Byte) : Bool :=
  (List.range 16).all fun d =>
    match segTable[d]?, glyphs[d]? with
    | some p, some gs => gs.any fun lit => (if litLevel then p else 0x7F &&& ~~~p) == patternOf lit
    | _, _ => false

/-- Item 1, 2 and 4 of R101, which make a table legal: sixteen entries, each its digit's glyph, bit 7 of each 0. -/
def tableLegal (litLevel : Bool) (segTable : List Byte) : Bool :=
  segTable.length == 16 && segTable.all (fun p => !p.getLsbD 7) && showsGlyphs litLevel segTable

/-- What every legal parameter set satisfies: N is even and at least 2 (R7), the port queue holds at least one byte
(R12), the table is legal (R10, R101). -/
def Config.isLegal (n portQueueDepth : Nat) (segTable : List Byte) (litLevel : Bool) : Bool :=
  n % 2 == 0 && decide (2 ≤ n) && decide (1 ≤ portQueueDepth) && tableLegal litLevel segTable

/-- The parameters of the block (R7 to R12), "a structure of constants". An illegal set, an odd N for one, is refused
when the model is configured (R57): a `Config` carries the proof that its values are legal, so none can be built. -/
structure Config where
  /-- `N`, the chain length (R7). -/
  n : Nat
  /-- `PORT_QUEUE_DEPTH` (R12). -/
  portQueueDepth : Nat
  /-- `SEG_TABLE` (R10). -/
  segTable : List Byte
  /-- `LIT_LEVEL`, true for 1; read by no rule of the block (R11), only by the legality of the table (R101). -/
  litLevel : Bool
  /-- `SHIFT_MSB_FIRST`; read by no rule (R12). -/
  shiftMsbFirst : Bool
  /-- The values are legal. -/
  legal : Config.isLegal n portQueueDepth segTable litLevel = true
deriving DecidableEq, Repr

/-- `DLEN = N / 2`, the number of data bytes (R8). -/
def Config.dlen (c : Config) : Nat := c.n / 2

/-- `W = 3 + 4*N`, the width of a command word (R82). -/
def Config.wordWidth (c : Config) : Nat := 3 + 4 * c.n

/-- The table of the configuration shows the glyphs (R101 item 2); every `Config` satisfies it. -/
def Config.conventional (c : Config) : Bool := showsGlyphs c.litLevel c.segTable

/-- The configuration of `State.reset`: N = 2, the source's only instance (R7); queue depth 1, that of the trace of
R177; the spec's defaults `SEG_TABLE_AH`, `LIT_LEVEL = 1` and `SHIFT_MSB_FIRST` true (R10 to R12).
DESIGN CHOICE (log 1): the spec gives N and the depth no value. Unsafe for a claim about `State.reset` alone. -/
def Config.reference : Config :=
  { n := 2, portQueueDepth := 1, segTable := segTableAH, litLevel := true, shiftMsbFirst := true, legal := by decide }

/-- One turn of the interleaving (R13, R20): which agent moves, and the input its step takes. -/
inductive Turn where
  /-- HOST offers a command word (R20, R83). -/
  | host (word : Nat)
  /-- CTRL moves, with the draw `flush_err` that its step takes in `FLUSH_WAIT` (R37, R159). -/
  | ctrl (flushErr : Bool)
  /-- CHAN moves (R164). -/
  | chan
  /-- PORT moves (R167). -/
  | port
deriving DecidableEq, Repr, Inhabited

/-- The turn the environment gives once the turns listed in a state are used up, the `k`-th such turn: a free value,
nothing constrains it (R13: any interleaving; R159: any draw; R83: any word).
DESIGN CHOICE (log 4). Safe: no proof can see its value. -/
opaque Config.freeTurn : Nat → Turn

end Sys2Proof
end

