-- ==== Sys2Proof/Syntax.lean ====
section
/-! DEFINITION. The six commands of the display core (30_encoding.md R84), one constructor per row of
spec/opcode_table.json, and what a decoder answers (R85). The twelve micro-operations of R92 have no encoding and no
constructor here: the machine performs them. -/

namespace Sys2Proof

/-- The commands (R84). A mask is listed in index order, digit 0 first, and has N elements; a byte list has DLEN
elements, byte 0 first (R86, R90). -/
inductive Instr where
  /-- ALLON: set every `on[i]` (R117). -/
  | allOn
  /-- ALLOFF: clear every `on[i]` (R118). -/
  | allOff
  /-- ON: replace `on` by the mask (R119). -/
  | on (mask : List Bool)
  /-- DPOINTS: replace `points` by the mask's decimal points (R121). -/
  | dPoints (mask : List Bool)
  /-- VALUES: replace `data` by the bytes (R122). -/
  | values (bytes : List Byte)
  /-- SHOW: render and show (R149). -/
  | showFrame
deriving DecidableEq, Repr

/-- What a command word decodes to: one of the six commands, or `illegal`, with the reserved opcode (R85, R88). -/
inductive Decoded where
  | command (i : Instr)
  | illegal (op : Nat)
deriving DecidableEq, Repr

end Sys2Proof
end

