-- ==== Sys2Proof/WellFormed.lean ====
section
/-! DEFINITION. Which commands the command port of a configuration can carry (30_encoding.md R86). -/

namespace Sys2Proof

/-- "A mask always has exactly N elements and a byte list exactly DLEN" (R86, R212). -/
def Instr.wf (c : Config) : Instr → Bool
  | .allOn => true
  | .allOff => true
  | .on mask => mask.length == c.n
  | .dPoints mask => mask.length == c.n
  | .values bytes => bytes.length == c.dlen
  | .showFrame => true

end Sys2Proof
end

