-- ==== Sys2Proof/Decode.lean ====
section
/-! DEFINITION. The decoder and the encoder of command words (30_encoding.md R82 to R88). A command word is a number;
its bits from W up do not exist on the port, and the decoder does not read them (log 5). -/

namespace Sys2Proof

/-- `op = w[2:0]` (R82). -/
def opField (w : Nat) : Nat := w % 8

/-- `arg = w[W-1:3]`, `4*N` bits (R82). -/
def argField (c : Config) (w : Nat) : Nat := w / 8 % 2 ^ (4 * c.n)

/-- `mask[i] = arg[i]` for `i = 0 .. N-1`, digit 0 the least significant bit (R86). -/
def maskOperand (c : Config) (arg : Nat) : List Bool := (List.range c.n).map arg.testBit

/-- `bytes[j] = arg[8*j+7 : 8*j]` for `j = 0 .. DLEN-1`, byte 0 the least significant (R86). -/
def bytesOperand (c : Config) (arg : Nat) : List Byte :=
  (List.range c.dlen).map fun j => BitVec.ofNat 8 (arg / 2 ^ (8 * j))

/-- The decoder, by `op` alone (R84, R85); opcodes 6 and 7 are reserved (R88); the argument bits a command does not
use are ignored (R87). -/
def decode (c : Config) (w : Nat) : Decoded :=
  match opField w with
  | 0 => .command .allOn
  | 1 => .command .allOff
  | 2 => .command (.on (maskOperand c (argField c w)))
  | 3 => .command (.dPoints (maskOperand c (argField c w)))
  | 4 => .command (.values (bytesOperand c (argField c w)))
  | 5 => .command .showFrame
  | op => .illegal op

/-- The opcode of a command (R84). -/
def opcode : Instr → Nat
  | .allOn => 0
  | .allOff => 1
  | .on _ => 2
  | .dPoints _ => 3
  | .values _ => 4
  | .showFrame => 5

/-- The number whose bit `i` is element `i` of the mask (R86). -/
def maskArg (mask : List Bool) : Nat := mask.foldr (fun b rest => b.toNat + 2 * rest) 0

/-- The number whose byte `j` is element `j` of the list (R86). -/
def bytesArg (bytes : List Byte) : Nat := bytes.foldr (fun b rest => b.toNat + 256 * rest) 0

/-- The `arg` of a command; "an assembler writes [the bits a command does not use] as zero" (R86, R87). -/
def argOf : Instr → Nat
  | .allOn => 0
  | .allOff => 0
  | .on mask => maskArg mask
  | .dPoints mask => maskArg mask
  | .values bytes => bytesArg bytes
  | .showFrame => 0

/-- The encoder: the command word of a command (R82). -/
def encode (i : Instr) : Nat := 8 * argOf i + opcode i

/-- The bits of a word that its command reads: `op`, and of `arg` the N low bits for ON and DPOINTS, all `4*N` for
VALUES, none for the others (R87). -/
def readBits (c : Config) (w : Nat) : Nat :=
  match opField w with
  | 2 | 3 => w % 2 ^ (3 + c.n)
  | 4 => w % 2 ^ c.wordWidth
  | op => op

/-- The command that the decoder of the reference configuration reads from a word of `nbits` bits, every bit above
them zero. -/
def decodeTableWord (nbits w : Nat) : Option Instr :=
  match decode Config.reference (w % 2 ^ nbits) with
  | .command i => some i
  | .illegal _ => none

end Sys2Proof
end

