-- ==== Sys2Proof/Machine/State.lean ====
section
/-! DEFINITION. The state of the display core (10_state.md), the reasons a step can stop, and the state after reset. -/

namespace Sys2Proof.Machine

/-- `phase`, the sequencer's state (R27, R145). -/
inductive Phase where
  | idle | render | xmit | fault
deriving DecidableEq, Repr

/-- `xsub`, which of the two waits of a transfer CTRL is in; meaningful only while `phase = XMIT` (R27). -/
inductive XSub where
  | dmaWait | flushWait
deriving DecidableEq, Repr

/-- `cause`, the fault cause register (R30, R184); its 2-bit codes are `Cause.code`. -/
inductive Cause where
  | none | flushFail | illegalCmd | accelUnconfigured
deriving DecidableEq, Repr

/-- `owner`, who holds the channel, the buffer and the port (R34). -/
inductive Owner where
  | ctrlSlots | showOp | xfer
deriving DecidableEq, Repr

/-- An event of the observation log (R40). -/
inductive Event where
  | latchFall | latchRise | byte (b : Byte)
deriving DecidableEq, Repr

/-- One extraction lane of the accelerator: a right-shift amount and an and-mask (R32). -/
structure Lane where
  shift : BitVec 3
  mask : Byte
deriving DecidableEq, Repr

/-- The lookup accelerator (R32, R33). -/
structure Accel where
  /-- `acc.cfg_done`. -/
  cfgDone : Bool
  /-- `acc.lane[0]`. -/
  lane0 : Lane
  /-- `acc.lane[1]`, its shift and its mask. -/
  lane1 : Lane
  /-- `acc.lane[1].shared_input`. -/
  sharedInput : Bool
  /-- `acc.accum`, the byte last loaded. -/
  accum : Byte
deriving DecidableEq, Repr

/-- The block-transfer channel (R35). -/
structure Chan where
  active : Bool
  idx : Nat
  done : Bool
deriving DecidableEq, Repr

/-- The whole machine. `cfg` holds the parameters, which no step changes (R38); `pending`, `sched` and `tick` hold the
inputs of the step relation (R38; log 3, 4, 5); every other field is state the spec names. -/
structure State where
  /-- The parameters (R7 to R12). -/
  cfg : Config
  /-- `on[0 .. N-1]` (R21). -/
  on : List Bool
  /-- `points[0 .. N-1]` (R22). -/
  points : List Byte
  /-- `data[0 .. DLEN-1]` (R23). -/
  data : List Byte
  /-- `bits[0 .. N-1]`, the bitstream buffer (R24). -/
  bits : List Byte
  /-- R27. -/
  phase : Phase
  /-- R27. -/
  xsub : XSub
  /-- The index of the next data byte to render (R27). -/
  ri : Nat
  /-- R30. -/
  cause : Cause
  /-- The latch pin, true for 1 = high (R31). -/
  latch : Bool
  /-- R32, R33. -/
  acc : Accel
  /-- R34. -/
  owner : Owner
  /-- R35. -/
  chan : Chan
  /-- `port.q`, its head first (R36). -/
  portQ : List Byte
  /-- The observation log, oldest event first (R40). -/
  wire : List Event
  /-- The command words HOST has offered and CTRL has not accepted, oldest first (R83). -/
  pending : List Nat
  /-- The turns the environment will give, next one first (R13, R38). -/
  sched : List Turn
  /-- How many turns were taken after `sched` was used up. -/
  tick : Nat
deriving DecidableEq, Repr

/-- Why a step can stop with a fault. The faults of the spec (60_exceptions.md) are not here: they are next states,
with `phase = FAULT`. -/
inductive Fault where
  /-- Raised by the render step and by CHAN_MOVE when an index lies outside its array or table. R56: it "cannot occur
  and has no defined behaviour"; no reachable state raises it. Safe (log 9). -/
  | indexOutOfRange
deriving DecidableEq, Repr

/-- Why a step can be refused. -/
inductive Refusal where
  /-- Raised by `exec` for an instruction that has no meaning yet; no arm does. Safe. -/
  | notModelled (mnemonic : String)
  /-- Raised by LOOKUP when lane 1 does not share lane 0's input: "the case is not defined and a model need not have
  it" (R107, 93_implementation_defined.md U11); no reachable state raises it. Safe (log 10). -/
  | laneInputNotShared
  /-- Raised by ON, DPOINTS and VALUES when the operand's length is not N or DLEN, which no command word can carry
  (R86). Safe (log 11). -/
  | operandLength
deriving DecidableEq, Repr

/-- The state after reset, for the configuration `c`: the table of R42.
DESIGN CHOICE (log 2): `acc.accum` is 0x00, where the spec gives no value. Unsafe. -/
def State.resetOf (c : Config) : State :=
  { cfg := c
    on := List.replicate c.n false
    points := List.replicate c.n 0x00
    data := List.replicate c.dlen 0x00
    bits := List.replicate c.n 0x00
    phase := .idle
    xsub := .dmaWait
    ri := 0
    cause := .none
    latch := true
    acc := { cfgDone := true, lane0 := { shift := 0, mask := 0x0F }, lane1 := { shift := 4, mask := 0x0F },
             sharedInput := true, accum := 0x00 }
    owner := .ctrlSlots
    chan := { active := false, idx := 0, done := false }
    portQ := []
    wire := []
    pending := []
    sched := []
    tick := 0 }

/-- The machine right after reset (R42, R205), in the reference configuration (log 1). -/
def State.reset : State := State.resetOf Config.reference

end Sys2Proof.Machine
end

