-- ==== Sys2Proof/Machine/Operands.lean ====
section
/-! DEFINITION. The operand forms as the arrays take them (30_encoding.md R77, R78, R86; 41_mutation.md R121). -/

namespace Sys2Proof.Machine

/-- The `points` array of a mask: `0x80` where the mask is 1, else `0x00` (R78, R121). -/
def pointsOf (mask : List Bool) : List Byte := mask.map fun m => if m then dpBit else 0x00

/-- The low nibble of a data byte, `b[3:0]`: the hex value of digit `2i` (R14, R77). -/
def lowNibble (b : Byte) : BitVec 4 := b.extractLsb' 0 4

/-- The high nibble of a data byte, `b[7:4]`: the hex value of digit `2i+1` (R14, R77). -/
def highNibble (b : Byte) : BitVec 4 := b.extractLsb' 4 4

/-- The hex value of digit `p`: nibble `p mod 2` of `data[p div 2]` (R53, R58, R134). -/
def nibbleOf (data : List Byte) (p : Nat) : Option (BitVec 4) :=
  data[p / 2]?.map fun b => if p % 2 = 0 then lowNibble b else highNibble b

end Sys2Proof.Machine
end

