-- ==== Sys2Proof/Machine/Ops.lean ====
section
/-! DEFINITION. The named operations over the state: fault entry, the primitives of 00_scope.md R16, and the
acceptance of a command. -/

namespace Sys2Proof.Machine

/-- `raise <Fault>`, fault entry (R17, R188): the cause and the phase are written "and nothing else". No state is
saved, there is no vector and no handler. There is no return from it: `FAULT` is final (R190), so no operation here
undoes this one. -/
def raise (cause : Cause) (s : State) : State := { s with cause := cause, phase := .fault }

/-- `WireEmit(e)`: append an event to the observation log (R16, R40). -/
def wireEmit (e : Event) (s : State) : State := { s with wire := s.wire ++ [e] }

/-- `PortPush(b)`: append a byte at the tail of the port queue (R16, R164). -/
def portPush (b : Byte) (s : State) : State := { s with portQ := s.portQ ++ [b] }

/-- `MemRead(p, 1)`: one byte of the bitstream buffer (R16, R57); no value outside the array (R56). -/
def memRead (s : State) (p : Nat) : Option Byte := s.bits[p]?

/-- `MemWrite(p, 1, v)`: `bits[p] <- v` (R16, R57); no state outside the array (R56). -/
def memWrite (p : Nat) (v : Byte) (s : State) : Option State :=
  if p < s.bits.length then some { s with bits := s.bits.set p v } else none

/-- A command with no operand to check, offered to CTRL: it has its effect when `cmd_ready = 1`; otherwise it is held,
"neither lost nor executed" (R83, R67).
DEDUCED (log 7): R83 states it of the port; `exec` states it of each command. Safe. -/
def accept (effect : State → State) (s : State) : Host.Outcome State Fault Refusal :=
  if s.phase = .idle then .next (effect s) else .next s

/-- The same for a command whose operand has `len` elements and needs `want` (R86); a wrong length is refused (log
11). -/
def acceptSized (len want : Nat) (effect : State → State) (s : State) : Host.Outcome State Fault Refusal :=
  if s.phase = .idle then
    if len = want then .next (effect s) else .refused .operandLength
  else .next s

end Sys2Proof.Machine
end

