-- ==== Sys2Proof/Machine/Mutation.lean ====
section
/-! DEFINITION. The mutation commands ALLON, ALLOFF, ON, DPOINTS and VALUES (41_mutation.md). Each writes the whole of
one array in the step that accepts it and nothing else (R115, R116, R125). -/

namespace Sys2Proof.Machine

/-- ALLON (R117): `on[i] <- 1` for every `i`. -/
def execAllOn (s : State) : Host.Outcome State Fault Refusal :=
  accept (fun s => { s with on := List.replicate s.cfg.n true }) s

/-- ALLOFF (R118): `on[i] <- 0` for every `i`; `points` and `data` are kept. -/
def execAllOff (s : State) : Host.Outcome State Fault Refusal :=
  accept (fun s => { s with on := List.replicate s.cfg.n false }) s

/-- ON (R119): `on[i] <- mask[i]` for every `i`, "full replace, not OR". -/
def execOn (mask : List Bool) (s : State) : Host.Outcome State Fault Refusal :=
  acceptSized mask.length s.cfg.n (fun s => { s with on := mask }) s

/-- DPOINTS (R121): `points[i] <- 0x80` where `mask[i] = 1`, else `0x00`; a full replace, `on` neither read nor
written. -/
def execDPoints (mask : List Bool) (s : State) : Host.Outcome State Fault Refusal :=
  acceptSized mask.length s.cfg.n (fun s => { s with points := pointsOf mask }) s

/-- VALUES (R122): `data[j] <- bytes[j]` for every `j`. -/
def execValues (bytes : List Byte) (s : State) : Host.Outcome State Fault Refusal :=
  acceptSized bytes.length s.cfg.dlen (fun s => { s with data := bytes }) s

end Sys2Proof.Machine
end

