-- ==== Sys2Proof/Machine/Flags.lean ====
section
/-! DEFINITION. The status flags and outputs of the block, all functions of other state (10_state.md R29, R30;
30_encoding.md R83). -/

namespace Sys2Proof.Machine

/-- The 2-bit code of a fault cause (R30, R184). -/
def Cause.code : Cause → BitVec 2
  | .none => 0
  | .flushFail => 1
  | .illegalCmd => 2
  | .accelUnconfigured => 3

/-- `busy = (phase != IDLE)` (R29). -/
def State.busy (s : State) : Bool := s.phase != .idle

/-- `fault = (phase == FAULT)` (R29). -/
def State.faulted (s : State) : Bool := s.phase == .fault

/-- `cmd_ready = (phase == IDLE)` (R29, R83). -/
def State.cmdReady (s : State) : Bool := s.phase == .idle

/-- `port.flushed`, "`port.q` is empty" (R29, R36). -/
def State.portFlushed (s : State) : Bool := s.portQ.isEmpty

/-- `cmd_valid`: a command word is offered (R83). -/
def State.cmdValid (s : State) : Bool := !s.pending.isEmpty

/-- `cmd_word`: the offered word, its W bits, while one is offered (R83). -/
def State.cmdWord (s : State) : Option Nat := s.pending.head?.map (· % 2 ^ s.cfg.wordWidth)

/-- The outputs the host can read (R83). -/
structure Outputs where
  cmdReady : Bool
  busy : Bool
  fault : Bool
  cause : BitVec 2
  latch : Bool
deriving DecidableEq, Repr

/-- What the host reads in a state (R29, R83). -/
def State.outputs (s : State) : Outputs :=
  { cmdReady := s.cmdReady, busy := s.busy, fault := s.faulted, cause := s.cause.code, latch := s.latch }

end Sys2Proof.Machine
end

