-- ==== Sys2Proof/Machine/Transfer.lean ====
section
/-! DEFINITION. SHOW and the transfer sequence (43_transfer.md): the micro-operations of CTRL, the channel's step and
the port's step. -/

namespace Sys2Proof.Machine

/-- TAKE, step 1 (R150): the SHOW takes the resources out of the controller's slots; the render pass is next. -/
def take (s : State) : State := { s with owner := .showOp, phase := .render, ri := 0 }

/-- SHOW (R149): the step that accepts it performs TAKE (R83); the rest of the sequence is the later steps of CTRL,
CHAN and PORT (R147; log 8). -/
def execShow (s : State) : Host.Outcome State Fault Refusal := accept take s

/-- LATCH_LOW, step 3 (R153). -/
def latchLow (s : State) : State := wireEmit .latchFall { s with latch := false }

/-- XFER_START, step 4 (R154). -/
def xferStart (s : State) : State :=
  { s with owner := .xfer, chan := { active := true, idx := 0, done := false },
           phase := .xmit, xsub := .dmaWait, ri := 0 }

/-- WAIT_CHAN, step 5, first wait (R156): the transfer gives the resources back to the SHOW. -/
def waitChan (s : State) : State :=
  { s with owner := .showOp, chan := { active := false, idx := 0, done := false }, xsub := .flushWait }

/-- LATCH_HIGH_RETURN, steps 6 and 7, one step (R160). -/
def latchHighReturn (s : State) : State :=
  { wireEmit .latchRise { s with latch := true } with owner := .ctrlSlots, phase := .idle, xsub := .dmaWait }

/-- WAIT_FLUSH, step 5, second wait (R159): the draw decides; the fault wins a tie (R187); with no error CTRL is held
until the queue is empty. -/
def waitFlush (flushErr : Bool) (s : State) : State :=
  if flushErr then raise .flushFail s
  else if s.portFlushed then latchHighReturn s
  else s

/-- When CHAN_MOVE is enabled (R164). -/
def chanMoveEnabled (s : State) : Bool :=
  s.chan.active && !s.chan.done && decide (s.chan.idx < s.cfg.n) && decide (s.portQ.length < s.cfg.portQueueDepth)

/-- CHAN_MOVE (R164, R165): the byte `bits[chan.idx]` goes to the tail of the port queue; the move of the last byte
sets `chan.done`. When it is not enabled CHAN does nothing. -/
def chanMove (s : State) : Host.Outcome State Fault Refusal :=
  if chanMoveEnabled s then
    match memRead s s.chan.idx with
    | none => .fault .indexOutOfRange
    | some b =>
      .next { portPush b s with
        chan := { active := s.chan.active, idx := s.chan.idx + 1,
                  done := s.chan.done || s.chan.idx + 1 == s.cfg.n } }
  else .next s

/-- PORT_SHIFT (R167, R168): the head of the queue goes onto the wire, in every phase. With an empty queue PORT does
nothing. -/
def portShift (s : State) : State :=
  match s.portQ with
  | [] => s
  | b :: rest => wireEmit (.byte b) { s with portQ := rest }

/-- The events one successful SHOW puts on the outputs (R80). -/
def frame (bytes : List Byte) : List Event := .latchFall :: bytes.map .byte ++ [.latchRise]

end Sys2Proof.Machine
end

