-- ==== Sys2Proof/Machine/Dispatch.lean ====
section
/-! DEFINITION. The meaning of every command, one arm per constructor of `Instr`. -/

namespace Sys2Proof.Machine

/-- The command `i` offered to CTRL in the state `s`. -/
def exec (i : Instr) (s : State) : Host.Outcome State Fault Refusal :=
  match i with
  | .allOn => Sys2Proof.Machine.execAllOn s
  | .allOff => Sys2Proof.Machine.execAllOff s
  | .on mask => Sys2Proof.Machine.execOn mask s
  | .dPoints mask => Sys2Proof.Machine.execDPoints mask s
  | .values bytes => Sys2Proof.Machine.execValues bytes s
  | .showFrame => Sys2Proof.Machine.execShow s

end Sys2Proof.Machine
end

