-- ==== Sys2Proof/Machine/Encoder.lean ====
section
/-! DEFINITION. The segment encoding table and the lookup accelerator (40_encoder.md): the table read, CONFIGURE, the
lane function, LOOKUP. -/

namespace Sys2Proof.Machine

/-- `encode(d) = SEG_TABLE[d]`: total on the sixteen digit values, pure (R100, R51). -/
def tableRead (c : Config) (d : BitVec 4) : Byte := c.segTable.getD d.toNat 0x00

/-- CONFIGURE (R106): the lane registers take the values of R32; `acc.accum` is not touched. -/
def configure (a : Accel) : Accel :=
  { a with
    lane0 := { shift := 0, mask := idxMask }
    lane1 := { shift := 4, mask := idxMask }
    sharedInput := true
    cfgDone := true }

/-- The lane function: `(in >> shift) & mask`, the shift logical (R107). -/
def laneResult (input : Byte) (l : Lane) : Byte := (input >>> l.shift.toNat) &&& l.mask

/-- `acc.result[0]`, computed from the accumulator (R33, R107). -/
def Accel.result0 (a : Accel) : Byte := laneResult a.accum a.lane0

/-- `acc.result[1]`, with lane 1 fed from lane 0's input (R33, R107). -/
def Accel.result1 (a : Accel) : Byte := laneResult a.accum a.lane1

/-- `acc.accum <- b`, the load (R108). -/
def Accel.load (a : Accel) (b : Byte) : Accel := { a with accum := b }

/-- What LOOKUP comes to (R108). -/
inductive Lookup where
  /-- The accelerator after the load, and the pair `(high_index, low_index)`, high first (R110). -/
  | indices (acc : Accel) (high low : Byte)
  /-- `acc.cfg_done = 0`: the fault `ACCEL_UNCONFIGURED` is to be raised (R183). -/
  | unconfigured
  /-- Lane 1 does not share lane 0's input: not defined (R107, U11). -/
  | inputNotShared
deriving DecidableEq, Repr

/-- LOOKUP (R108): load the byte into the accumulator, read both lane results, in one step (R215). Unconfigured, it
loads nothing. -/
def lookup (a : Accel) (b : Byte) : Lookup :=
  if a.cfgDone then
    if a.sharedInput then
      .indices (a.load b) (a.load b).result1 (a.load b).result0
    else .inputNotShared
  else .unconfigured

/-- The composed encoder: the patterns of digit `2i+1` and digit `2i` before `on` and `points` are applied (R112). -/
def encodePair (c : Config) (b : Byte) : Byte × Byte :=
  (tableRead c (highNibble b), tableRead c (lowNibble b))

end Sys2Proof.Machine
end

