-- ==== Sys2Proof/Machine/Render.lean ====
section
/-! DEFINITION. The render pass (42_render.md): the byte of one digit, the render step of the sequencer, and the pure
function the pass computes. -/

namespace Sys2Proof.Machine

/-- `digit(p, idx)` (R133): the digit's decimal-point byte, or-ed with the table entry of its index when the digit is
on. The table is read only for a digit that is on. No value when an index is out of range (R56). -/
def digit (s : State) (p : Nat) (idx : Byte) : Option Byte :=
  match s.on[p]?, s.points[p]? with
  | some true, some point => s.cfg.segTable[idx.toNat]?.map (point ||| ·)
  | some false, some point => some point
  | _, _ => none

/-- The two buffer writes of a render step, the low digit first (R131, R141). -/
def writeDigits (i : Nat) (high low : Byte) (s : State) : Option State :=
  match digit s (2 * i) low, digit s (2 * i + 1) high with
  | some x, some y => (memWrite (2 * i) x s).bind (memWrite (2 * i + 1) y)
  | _, _ => none

/-- The render step (R132): LOOKUP of `data[ri]`, both digits' bytes, `ri <- ri + 1`. An unconfigured accelerator
raises `ACCEL_UNCONFIGURED` and nothing else happens (R108, R183, R189). -/
def renderStep (s : State) : Host.Outcome State Fault Refusal :=
  match s.data[s.ri]? with
  | none => .fault .indexOutOfRange
  | some b =>
    match lookup s.acc b with
    | .unconfigured => .next (raise .accelUnconfigured s)
    | .inputNotShared => .refused .laneInputNotShared
    | .indices acc high low =>
      match writeDigits s.ri high low { s with acc := acc } with
      | none => .fault .indexOutOfRange
      | some s' => .next { s' with ri := s.ri + 1 }

/-- The closed form of one digit's byte (R134): `points[p] | (if on[p] then SEG_TABLE[nib(p)] else 0x00)`. -/
def digitByte (c : Config) (on : List Bool) (points data : List Byte) (p : Nat) : Byte :=
  points.getD p 0x00 ||| (if on.getD p false then tableRead c ((nibbleOf data p).getD 0) else 0x00)

/-- `render(on, points, data)`, the pure function of the pass (R134, R137): N bytes, digit 0 first. -/
def render (c : Config) (on : List Bool) (points data : List Byte) : List Byte :=
  (List.range c.n).map (digitByte c on points data)

/-- What a render pass makes of a state's logical state. -/
def State.rendered (s : State) : List Byte := render s.cfg s.on s.points s.data

end Sys2Proof.Machine
end

