-- ==== Sys2Proof/Machine/Sequencer.lean ====
section
/-! DEFINITION. The steps of the agents (10_state.md R20, R27; 43_transfer.md R147): the acceptance of a command word,
the turn of CTRL, the turn of each agent, and the choice of the next turn. A turn of an agent that has no enabled step
changes nothing (log 3). -/

namespace Sys2Proof.Machine

/-- CTRL accepts the offered word `w`, leaving `rest` pending (R83): it decodes it and executes the command; a
reserved opcode raises `ILLEGAL_CMD` and changes no array (R88, R182). The head of the pending words is removed either way (R83). -/
def acceptWord (w : Nat) (rest : List Nat) (s : State) : Host.Outcome State Fault Refusal :=
  match decode s.cfg w with
  | .command i => exec i { s with pending := rest }
  | .illegal _ => .next (raise .illegalCmd { s with pending := rest })

/-- A turn of CTRL with its draw `flush_err` (R147, R159). In `IDLE` it accepts the offered word, if there is one; in
`RENDER` it renders, and when `ri = DLEN` asserts the latch and starts the transfer in one step (R155); in `XMIT` it
takes the two waits; in `FAULT` it has no step (R190). -/
def ctrlTurn (flushErr : Bool) (s : State) : Host.Outcome State Fault Refusal :=
  match s.phase with
  | .idle =>
    match s.pending with
    | [] => .next s
    | w :: rest => acceptWord w rest s
  | .render =>
    if s.ri < s.cfg.dlen then renderStep s
    else if s.ri = s.cfg.dlen then .next (xferStart (latchLow s))
    else .next s
  | .xmit =>
    match s.xsub with
    | .dmaWait => if s.chan.done then .next (waitChan s) else .next s
    | .flushWait => .next (waitFlush flushErr s)
  | .fault => .next s

/-- One turn of one agent (R20). A turn of HOST adds a word to its list of pending commands (R83). -/
def runTurn (t : Turn) (s : State) : Host.Outcome State Fault Refusal :=
  match t with
  | .host w => .next { s with pending := s.pending ++ [w] }
  | .ctrl flushErr => ctrlTurn flushErr s
  | .chan => chanMove s
  | .port => .next (portShift s)

/-- The turn the environment gives: the next listed one; with none listed, a free one (log 3, log 4). -/
def State.nextTurn (s : State) : Turn :=
  match s.sched with
  | t :: _ => t
  | [] => Config.freeTurn s.tick

/-- The state with that turn used up. -/
def State.spendTurn (s : State) : State :=
  match s.sched with
  | _ :: ts => { s with sched := ts }
  | [] => { s with tick := s.tick + 1 }

/-- The state with the word `w` presented first on the command port and a turn of CTRL, with no flush error, given
next. -/
def State.present (s : State) (w : Nat) : State :=
  { s with pending := w :: s.pending, sched := .ctrl false :: s.sched }

end Sys2Proof.Machine
end

