-- ==== Sys2Proof/Machine/Step.lean ====
section
/-! DEFINITION. One step of the machine: one turn of one agent. -/

namespace Sys2Proof.Machine

/-- One step: the environment's next turn is used up, and the agent it names moves (R13, R20). -/
def step (s : State) : Host.Outcome State Fault Refusal := runTurn s.nextTurn s.spendTurn

/-- The state in which the very next step accepts the word of `nbits` bits `w`, every bit above them zero: the word
stands first among the pending words and CTRL has the next turn (log 6). -/
def State.withFetchWord (s : State) (nbits w : Nat) : State := s.present (w % 2 ^ nbits)

end Sys2Proof.Machine
end

