-- ==== Sys2Proof/Machine/Construct.lean ====
section
/-! DEFINITION. CONSTRUCT (70_reset_and_hazards.md R206), the block's reset as an operation on whatever the state
elements held before. It is not a command and no step performs it: only the first construction is modelled (R209). -/

namespace Sys2Proof.Machine

/-- CONSTRUCT (R206): CONFIGURE, the latch to its idle-high level with no wire event, and every element to its reset
value. `acc.accum`, the log and the inputs are not written (log 17). -/
def construct (before : State) : State :=
  { before with
    acc := configure before.acc
    latch := true
    on := List.replicate before.cfg.n false
    points := List.replicate before.cfg.n 0x00
    data := List.replicate before.cfg.dlen 0x00
    bits := List.replicate before.cfg.n 0x00
    owner := .ctrlSlots
    phase := .idle
    xsub := .dmaWait
    ri := 0
    cause := .none
    chan := { active := false, idx := 0, done := false }
    portQ := [] }

end Sys2Proof.Machine
end

