-- ==== Sys2Proof/Machine/Text.lean ====
section
/-! DEFINITION. The textual syntax of commands (30_encoding.md R90): a reader of one line and a writer. Texts are lists
of characters. What R90 leaves open, white space and the inside of `On(...)`, is fixed here (log 15). -/

namespace Sys2Proof.Machine

/-- The tokens of a line. -/
inductive Token where
  | word (cs : List Char)
  | lbrack | rbrack | lparen | rparen | comma
deriving DecidableEq, Repr

/-- The word read so far (held backwards), as a token if it is not empty. -/
def flushWord (acc : List Char) : List Token := if acc.isEmpty then [] else [.word acc.reverse]

/-- The tokens of a line; "a `;` starts a comment that runs to the end of the line" (R90). -/
def tokens (acc : List Char) : List Char → List Token
  | [] => flushWord acc
  | ch :: rest =>
    if ch = ';' then flushWord acc
    else if ch = ' ' || ch = '\t' then flushWord acc ++ tokens [] rest
    else if ch = '[' then flushWord acc ++ .lbrack :: tokens [] rest
    else if ch = ']' then flushWord acc ++ .rbrack :: tokens [] rest
    else if ch = '(' then flushWord acc ++ .lparen :: tokens [] rest
    else if ch = ')' then flushWord acc ++ .rparen :: tokens [] rest
    else if ch = ',' then flushWord acc ++ .comma :: tokens [] rest
    else tokens (ch :: acc) rest

/-- `bit := "0" | "1"` (R90). -/
def readBit : List Char → Option Bool
  | ['0'] => some false
  | ['1'] => some true
  | _ => none

/-- The value of a hexadecimal digit. -/
def hexValue (ch : Char) : Option Nat :=
  if '0' ≤ ch ∧ ch ≤ '9' then some (ch.toNat - '0'.toNat)
  else if 'A' ≤ ch ∧ ch ≤ 'F' then some (ch.toNat - 'A'.toNat + 10)
  else if 'a' ≤ ch ∧ ch ≤ 'f' then some (ch.toNat - 'a'.toNat + 10)
  else none

/-- `byte := "0x" hexdigit hexdigit` (R90). -/
def readByte : List Char → Option Byte
  | ['0', 'x', h, l] =>
    match hexValue h, hexValue l with
    | some vh, some vl => some (BitVec.ofNat 8 (16 * vh + vl))
    | _, _ => none
  | _ => none

/-- The elements of a list, after its `[` and up to its `]`, and the tokens after it (R90). -/
def readItems {α : Type} (elem : List Char → Option α) : List Token → Option (List α × List Token)
  | .word cs :: .comma :: rest =>
    match elem cs, readItems elem rest with
    | some x, some (xs, after) => some (x :: xs, after)
    | _, _ => none
  | .word cs :: .rbrack :: rest => (elem cs).map fun x => ([x], rest)
  | _ => none

/-- A bracketed list that ends the line, in the parentheses of the source's spelling or without them (R90). -/
def readOperand {α : Type} (elem : List Char → Option α) : List Token → Option (List α)
  | .lbrack :: rest =>
    match readItems elem rest with
    | some (xs, []) => some xs
    | _ => none
  | .lparen :: .lbrack :: rest =>
    match readItems elem rest with
    | some (xs, [.rparen]) => some xs
    | _ => none
  | _ => none

/-- The mnemonics of R84, and the source's spellings, which are aliases (R90). -/
def readCommand : List Token → Option Instr
  | .word cs :: rest =>
    if cs = ['A', 'L', 'L', 'O', 'N'] ∨ cs = ['A', 'l', 'l', 'O', 'n'] then
      if rest = [] then some .allOn else none
    else if cs = ['A', 'L', 'L', 'O', 'F', 'F'] ∨ cs = ['A', 'l', 'l', 'O', 'f', 'f'] then
      if rest = [] then some .allOff else none
    else if cs = ['O', 'N'] ∨ cs = ['O', 'n'] then (readOperand readBit rest).map .on
    else if cs = ['D', 'P', 'O', 'I', 'N', 'T', 'S'] ∨
        cs = ['D', 'e', 'c', 'i', 'm', 'a', 'l', 'P', 'o', 'i', 'n', 't', 's'] then
      (readOperand readBit rest).map .dPoints
    else if cs = ['V', 'A', 'L', 'U', 'E', 'S'] ∨ cs = ['V', 'a', 'l', 'u', 'e', 's'] then
      (readOperand readByte rest).map .values
    else if cs = ['S', 'H', 'O', 'W'] then
      if rest = [] then some .showFrame else none
    else none
  | _ => none

/-- The command of a line of text, for the configuration `c`: masks have "exactly N elements" and byte lists "exactly
DLEN elements" (R90). -/
def readLine (c : Config) (line : List Char) : Option Instr :=
  (readCommand (tokens [] line)).filter (·.wf c)

/-- A bit as text. -/
def writeBit (b : Bool) : List Char := if b then ['1'] else ['0']

/-- The digit of a value below 16. -/
def hexDigit (v : Nat) : Char := if v < 10 then Char.ofNat (v + '0'.toNat) else Char.ofNat (v - 10 + 'A'.toNat)

/-- A byte as text. -/
def writeByte (b : Byte) : List Char := ['0', 'x', hexDigit (b.toNat / 16), hexDigit (b.toNat % 16)]

/-- The elements of a list, each after a comma. -/
def writeItems {α : Type} (elem : α → List Char) : List α → List Char
  | [] => [']']
  | x :: xs => ',' :: elem x ++ writeItems elem xs

/-- A list in index order, "the leftmost element is digit 0" (R90). -/
def writeOperand {α : Type} (elem : α → List Char) : List α → List Char
  | [] => ['[', ']']
  | x :: xs => '[' :: elem x ++ writeItems elem xs

/-- A command as text (R90). -/
def writeLine : Instr → List Char
  | .allOn => ['A', 'L', 'L', 'O', 'N']
  | .allOff => ['A', 'L', 'L', 'O', 'F', 'F']
  | .on mask => ['O', 'N', ' '] ++ writeOperand writeBit mask
  | .dPoints mask => ['D', 'P', 'O', 'I', 'N', 'T', 'S', ' '] ++ writeOperand writeBit mask
  | .values bytes => ['V', 'A', 'L', 'U', 'E', 'S', ' '] ++ writeOperand writeByte bytes
  | .showFrame => ['S', 'H', 'O', 'W']

end Sys2Proof.Machine
end

