-- ==== Sys2Proof/Safety.lean ====
section
/-! DEFINITION. What counts as a safe run of the display core, in the terms claims use: the invariants of 10_state.md
R41, the shape of the observation log (43_transfer.md R169), the states a run can reach, and the turns that let a SHOW
finish. -/

namespace Sys2Proof.Machine

/-- No fault has occurred: "every claim about the display takes `cause = 0` as a premise" (R190). -/
abbrev State.safe (s : State) : Prop := s.cause = .none

/-- Every array has the length the spec gives it (R26, R50). -/
abbrev State.Shaped (s : State) : Prop :=
  s.on.length = s.cfg.n ∧ s.points.length = s.cfg.n ∧ s.data.length = s.cfg.dlen ∧ s.bits.length = s.cfg.n

/-- R41 item 1. -/
abbrev State.PointsLegal (s : State) : Prop := ∀ p ∈ s.points, p = 0x00 ∨ p = 0x80

/-- R41 item 2. -/
abbrev State.IdleAtRest (s : State) : Prop :=
  s.phase = .idle → s.owner = .ctrlSlots ∧ s.latch = true ∧ s.chan.active = false ∧ s.chan.done = false ∧
    s.chan.idx = 0 ∧ s.portQ = [] ∧ s.ri = 0 ∧ s.cause = .none

/-- R41 item 3. -/
abbrev State.RenderHolds (s : State) : Prop :=
  s.phase = .render → s.owner = .showOp ∧ s.latch = true ∧ s.chan.active = false ∧ s.portQ = [] ∧ s.ri ≤ s.cfg.dlen

/-- R41 item 4. -/
abbrev State.DmaWaitHolds (s : State) : Prop :=
  s.phase = .xmit ∧ s.xsub = .dmaWait → s.owner = .xfer ∧ s.latch = false ∧ s.chan.active = true

/-- R41 item 5. -/
abbrev State.FlushWaitHolds (s : State) : Prop :=
  s.phase = .xmit ∧ s.xsub = .flushWait →
    s.owner = .showOp ∧ s.latch = false ∧ s.chan.active = false ∧ s.chan.idx = 0 ∧ s.chan.done = false

/-- R41 item 6. -/
abbrev State.ChanLegal (s : State) : Prop :=
  (s.chan.done = true → s.chan.idx = s.cfg.n) ∧
    (s.chan.active = false → s.chan.idx = 0 ∧ s.chan.done = false)

/-- R41 item 7: the accelerator is configured (R32). -/
abbrev Accel.Configured (a : Accel) : Prop :=
  a.cfgDone = true ∧ a.lane0 = { shift := 0, mask := 0x0F } ∧ a.lane1 = { shift := 4, mask := 0x0F } ∧
    a.sharedInput = true

/-- R41 item 8. -/
abbrev State.QueueFits (s : State) : Prop := s.portQ.length ≤ s.cfg.portQueueDepth

/-- R41 item 9, its first half. -/
abbrev State.CauseMatchesPhase (s : State) : Prop := s.phase = .fault ↔ s.cause ≠ .none

/-- R41 item 10. -/
abbrev State.EdgesMatchLatch (s : State) : Prop :=
  s.wire.count .latchFall = s.wire.count .latchRise + (if s.latch then 0 else 1)

/-- The ten invariants of R41, as far as each speaks of one state, in its order. -/
abbrev State.RuleInvariants (s : State) : Prop :=
  s.PointsLegal ∧ s.IdleAtRest ∧ s.RenderHolds ∧ s.DmaWaitHolds ∧ s.FlushWaitHolds ∧ s.ChanLegal ∧
    s.acc.Configured ∧ s.QueueFits ∧ s.CauseMatchesPhase ∧ s.EdgesMatchLatch

/-- What the ten need beside them to be kept by every step: an active channel counts up to N and is done exactly
there (R35, R165), and is inactive outside a transfer, in FAULT too. -/
abbrev State.ChanProgress (s : State) : Prop :=
  (s.chan.active = true → s.phase = .xmit ∧ s.xsub = .dmaWait) ∧
    (s.chan.active = true → s.chan.idx ≤ s.cfg.n ∧ (s.chan.done = true ↔ s.chan.idx = s.cfg.n))

/-- `ri` is back at 0 once the transfer has started (R27, R154). -/
abbrev State.CounterRests (s : State) : Prop := s.phase = .xmit → s.ri = 0

/-- The invariant of the machine: the ten of R41, the shapes of the arrays, the channel's progress, the counter at
rest. -/
abbrev State.Inv (s : State) : Prop := s.Shaped ∧ s.RuleInvariants ∧ s.ChanProgress ∧ s.CounterRests

/-- Where the observation log stands: between frames, or inside one, with the bytes sent since the latch fell. -/
inductive WirePos where
  | between
  | inside (sent : List Byte)
deriving DecidableEq, Repr

/-- The log's next event: only `LatchFall Byte^n LatchRise` makes a frame (R80, R169). -/
def WirePos.next (n : Nat) : WirePos → Event → Option WirePos
  | .between, .latchFall => some (.inside [])
  | .inside sent, .byte b => if sent.length < n then some (.inside (sent ++ [b])) else none
  | .inside sent, .latchRise => if sent.length = n then some .between else none
  | _, _ => none

/-- Reads a log from its start; none when it is not whole frames with at most one partial frame after them (R169). -/
def wirePos (n : Nat) (wire : List Event) : Option WirePos := wire.foldlM (WirePos.next n) .between

/-- The bytes of the current frame that have left the buffer: `chan.idx` of them while the channel runs, all N from
WAIT_CHAN on, a flush failure included (R157, R188), none outside a frame. -/
def State.moved (s : State) : Nat :=
  match s.phase, s.xsub with
  | .xmit, .dmaWait => s.chan.idx
  | .xmit, .flushWait => s.cfg.n
  | .fault, _ => if s.cause = .flushFail then s.cfg.n else 0
  | _, _ => 0

/-- The bytes of the current frame that are on the wire: those moved less those queued (R36). -/
def State.sentCount (s : State) : Nat := s.moved - s.portQ.length

/-- The log agrees with the machine: whole frames, and while the latch is low one partial frame that holds the first
bytes of `bits` in order, the next ones being those in the port queue (R70, R80, R169). -/
abbrev State.WireInv (s : State) : Prop :=
  wirePos s.cfg.n s.wire = some (if s.latch then .between else .inside (s.bits.take s.sentCount)) ∧
    s.portQ.length ≤ s.moved ∧ (s.bits.take s.moved).drop s.sentCount = s.portQ ∧
    (s.phase = .fault → (s.latch = false ↔ s.cause = .flushFail))

/-- The buffer agrees with the logical state: in `RENDER` the digits below `2*ri` are rendered, in `XMIT` all are (R68,
R136, R152); the accumulator holds the last byte looked up (R33). -/
abbrev State.RenderInv (s : State) : Prop :=
  (s.phase = .render → s.bits.take (2 * s.ri) = s.rendered.take (2 * s.ri) ∧
    (0 < s.ri → s.data[s.ri - 1]? = some s.acc.accum)) ∧
  (s.phase = .xmit → s.bits = s.rendered ∧ s.data[s.cfg.dlen - 1]? = some s.acc.accum)

/-- All invariants together: those of R41, the log's, the buffer's. -/
abbrev State.FullInv (s : State) : Prop := s.Inv ∧ s.WireInv ∧ s.RenderInv

/-- The states a run of the configuration `c` can reach: from reset, with any words pending and any turns to come, by
steps (R13, R38). -/
inductive Reachable (c : Config) : State → Prop where
  | start (pending : List Nat) (sched : List Turn) (tick : Nat) :
      Reachable c { State.resetOf c with pending := pending, sched := sched, tick := tick }
  | step {s t : State} : Reachable c s → Sys2Proof.Machine.step s = .next t → Reachable c t

/-- `k` steps of the machine, stopping at a stop. -/
def runFor (k : Nat) (s : State) : Host.Outcome State Fault Refusal := Host.Core.run Sys2Proof.core k s

/-- Two commands offered one after the other. -/
def execBoth (i j : Instr) (s : State) : Host.Outcome State Fault Refusal :=
  match exec i s with
  | .next t => exec j t
  | .fault r => .fault r
  | .refused r => .refused r

/-- The array a command writes; none for SHOW, which is no mutation (R25, R125). -/
inductive Target where
  | on | points | data
deriving DecidableEq, Repr

/-- The array a mutation writes (R25, R125). -/
def targetOf : Instr → Option Target
  | .allOn => some .on
  | .allOff => some .on
  | .on _ => some .on
  | .dPoints _ => some .points
  | .values _ => some .data
  | .showFrame => none

/-- Two states that agree on everything but what is displayed: the control state, the inputs, and how many bytes are
queued and events logged, not the bytes themselves (R175). -/
abbrev SameControl (s t : State) : Prop :=
  s.cfg = t.cfg ∧ s.phase = t.phase ∧ s.xsub = t.xsub ∧ s.ri = t.ri ∧ s.cause = t.cause ∧ s.latch = t.latch ∧
    s.owner = t.owner ∧ s.chan = t.chan ∧ s.portQ.length = t.portQ.length ∧ s.wire.length = t.wire.length ∧
    s.pending = t.pending ∧ s.sched = t.sched ∧ s.tick = t.tick

/-- The agents of which R173 assumes weak fairness; of HOST it assumes none. -/
inductive FairAgent where
  | ctrl | chan | port
deriving DecidableEq, Repr

/-- The agent of a turn, if it is one of which fairness is assumed. -/
def fairAgentOf : Turn → Option FairAgent
  | .host _ => none
  | .ctrl _ => some .ctrl
  | .chan => some .chan
  | .port => some .port

/-- When an agent has an enabled step (R147).
DEDUCED (log 13): a flush failure, which can be drawn at every step of `FLUSH_WAIT` (R159), counts for nothing here,
since fairness obliges no run to draw it. Safe. -/
def State.enabled (s : State) : FairAgent → Bool
  | .ctrl =>
    match s.phase with
    | .idle => s.cmdValid
    | .render => decide (s.ri ≤ s.cfg.dlen)
    | .xmit =>
      match s.xsub with
      | .dmaWait => s.chan.done
      | .flushWait => s.portFlushed
    | .fault => false
  | .chan => chanMoveEnabled s
  | .port => !s.portFlushed

/-- An infinite run from `states 0`, with the turns as the inputs that they are (R13, R38): `turns k` takes `states k`
to `states (k + 1)`. The lists of turns inside the states are not read. -/
abbrev IsRun (turns : Nat → Turn) (states : Nat → State) : Prop :=
  ∀ k, runTurn (turns k) (states k) = .next (states (k + 1))

/-- R173, weak fairness: "a step that stays enabled is eventually taken". From every moment on, each agent is at some
moment not enabled, or has the turn. HOST may move or not, at any time. -/
abbrev WeaklyFair (turns : Nat → Turn) (states : Nat → State) : Prop :=
  ∀ (agent : FairAgent) (k : Nat),
    ∃ j, k ≤ j ∧ ((states j).enabled agent = false ∨ fairAgentOf (turns j) = some agent)

/-- From the moment `k` on, no `flush_err` draw is true (R161). A draw is taken only in `FLUSH_WAIT` (R37, R159). -/
abbrev NoFlushError (turns : Nat → Turn) (states : Nat → State) (k : Nat) : Prop :=
  ∀ j, k ≤ j → (states j).phase = .xmit → (states j).xsub = .flushWait → turns j ≠ .ctrl true

/-- A round of turns in which CTRL, CHAN and PORT each move at least once, HOST offers nothing and no flush error is
drawn.
DESIGN CHOICE (log 13): stronger than R173's weak fairness, which is `WeaklyFair`; it serves the claims that bound a
run's length. Safe. -/
abbrev FairRound (round : List Turn) : Prop :=
  .ctrl false ∈ round ∧ .chan ∈ round ∧ .port ∈ round ∧
    ∀ t ∈ round, t = .ctrl false ∨ t = .chan ∨ t = .port

/-- The logical state: what the mutation commands write (R19). -/
structure Logical where
  on : List Bool
  points : List Byte
  data : List Byte
deriving DecidableEq, Repr

/-- The logical state of the machine. -/
def State.logical (s : State) : Logical := { on := s.on, points := s.points, data := s.data }

/-- What a command makes of the logical state (R125); SHOW leaves it (R138). -/
def Logical.after (c : Config) (l : Logical) : Instr → Logical
  | .allOn => { l with on := List.replicate c.n true }
  | .allOff => { l with on := List.replicate c.n false }
  | .on mask => { l with on := mask }
  | .dPoints mask => { l with points := mask.map fun m => if m then 0x80 else 0x00 }
  | .values bytes => { l with data := bytes }
  | .showFrame => l

/-- What a sequence of commands puts on the outputs: for each SHOW the frame of the logical state it finds (R65, R66,
R124). -/
def framesOf (c : Config) : List Instr → Logical → List Event
  | [], _ => []
  | .showFrame :: rest, l => frame (render c l.on l.points l.data) ++ framesOf c rest l
  | i :: rest, l => framesOf c rest (l.after c i)

/-- How many steps a SHOW takes: TAKE, DLEN render steps, the start, N moves, N shifts, WAIT_CHAN, the return (R147,
R223). -/
def showSteps (c : Config) : Nat := 4 + c.dlen + 2 * c.n

end Sys2Proof.Machine
end

