-- ==== Sys2Proof/Certificates/Slice0/Obligations.lean ====
section
/-! DEFINITION. The statements for the provers, from the numbered rules of spec/. Each docstring cites the rule. -/

open Sys2Proof Sys2Proof.Machine

/-- Decoding the word of a well-formed command gives the command back, in every configuration (R82, R84, R86; the
round trip of 95_test_vectors.md V-E4). -/
def Obligations.DecodingAnEncodedCommandGivesItBack : Prop :=
  ∀ (c : Config) (i : Instr), i.wf c = true → decode c (encode i) = .command i

/-- R87: a decoded command is well formed, assembling it gives the word with its ignored bits cleared, and words that
differ only in ignored bits decode alike. -/
def Obligations.IgnoredBitsDoNotMatter : Prop :=
  ∀ (c : Config) (w : Nat),
    (∀ i, decode c w = .command i → i.wf c = true ∧ encode i = readBits c w) ∧
    (∀ w', readBits c w' = readBits c w → decode c w' = decode c w)

/-- R93: the worked encodings, both ways. -/
def Obligations.WorkedEncodingsOfTheSpec : Prop :=
  ∀ c : Config,
    (c.n = 2 → c.wordWidth = 11 ∧
      decode c 0x00C = .command (.values [0x01]) ∧ encode (.values [0x01]) = 0x00C ∧
      decode c 0x000 = .command .allOn ∧ encode .allOn = 0x000 ∧
      decode c 0x005 = .command .showFrame ∧ encode .showFrame = 0x005 ∧
      decode c 0x00B = .command (.dPoints [true, false]) ∧ encode (.dPoints [true, false]) = 0x00B) ∧
    (c.n = 4 → c.wordWidth = 19 ∧
      decode c 0x1E52C = .command (.values [0xA5, 0x3C]) ∧ encode (.values [0xA5, 0x3C]) = 0x1E52C ∧
      decode c 0x0006A = .command (.on [true, false, true, true]) ∧
      encode (.on [true, false, true, true]) = 0x0006A ∧
      decode c 0x00053 = .command (.dPoints [false, true, false, true]) ∧
      encode (.dPoints [false, true, false, true]) = 0x00053 ∧
      decode c 0x00001 = .command .allOff ∧ encode .allOff = 0x00001 ∧
      decode c 0x00006 = .illegal 6 ∧ decode c 0x00007 = .illegal 7)

/-- R90: reading back the text of a well-formed command gives the command. The spacing the writer uses is the model's
(log 15). -/
def Obligations.ReadingAWrittenCommandGivesItBack : Prop :=
  ∀ (c : Config) (i : Instr), i.wf c = true → readLine c (writeLine i) = some i

/-- R83: in `IDLE`, a turn of CTRL with a word offered uses the word up and runs the command it decodes to. -/
def Obligations.StepRunsTheDecodedCommand : Prop :=
  ∀ (s : State) (flushErr : Bool) (w : Nat) (rest : List Nat) (i : Instr),
    s.phase = .idle → s.nextTurn = .ctrl flushErr → s.pending = w :: rest → decode s.cfg w = .command i →
    step s = exec i { s.spendTurn with pending := rest }

/-- R88: a word with `op` 6 or 7 accepted in `IDLE` changes no array and raises `ILLEGAL_CMD`. -/
def Obligations.ReservedOpcodeRaisesIllegalCmd : Prop :=
  ∀ (s : State) (flushErr : Bool) (w : Nat) (rest : List Nat),
    s.phase = .idle → s.nextTurn = .ctrl flushErr → s.pending = w :: rest → (w % 8 = 6 ∨ w % 8 = 7) →
    step s = .next { s.spendTurn with pending := rest, phase := .fault, cause := .illegalCmd }

/-- R20, R83: a turn of HOST adds a word to its pending ones and does nothing else to the block. -/
def Obligations.HostTurnOnlyOffersAWord : Prop :=
  ∀ (s : State) (w : Nat), s.nextTurn = .host w →
    step s = .next { s.spendTurn with pending := s.pending ++ [w] }

/-- R117: ALLON. -/
def Obligations.AllOnSetsEveryDigit : Prop :=
  (∀ (c : Config) (w : Nat), w % 8 = 0 → decode c w = .command .allOn) ∧
  (∀ s : State, s.phase = .idle → exec .allOn s = .next { s with on := List.replicate s.cfg.n true })

/-- R118: ALLOFF. -/
def Obligations.AllOffClearsEveryDigit : Prop :=
  (∀ (c : Config) (w : Nat), w % 8 = 1 → decode c w = .command .allOff) ∧
  (∀ s : State, s.phase = .idle → exec .allOff s = .next { s with on := List.replicate s.cfg.n false })

/-- R119: ON. -/
def Obligations.OnReplacesTheDigitMask : Prop :=
  (∀ (c : Config) (w : Nat), w % 8 = 2 →
    ∃ mask, decode c w = .command (.on mask) ∧ mask.length = c.n ∧
      ∀ i, i < c.n → mask[i]? = some (w.testBit (3 + i))) ∧
  (∀ (s : State) (mask : List Bool), s.phase = .idle → mask.length = s.cfg.n →
    exec (.on mask) s = .next { s with on := mask })

/-- R121: DPOINTS. -/
def Obligations.DPointsReplacesTheDecimalPoints : Prop :=
  (∀ (c : Config) (w : Nat), w % 8 = 3 →
    ∃ mask, decode c w = .command (.dPoints mask) ∧ mask.length = c.n ∧
      ∀ i, i < c.n → mask[i]? = some (w.testBit (3 + i))) ∧
  (∀ (s : State) (mask : List Bool), s.phase = .idle → mask.length = s.cfg.n →
    exec (.dPoints mask) s =
      .next { s with points := mask.map fun m => if m then (0x80 : Byte) else 0x00 })

/-- R122: VALUES. The low nibble of a byte is the lower digit's value, the high nibble the next one's. -/
def Obligations.ValuesReplacesTheData : Prop :=
  (∀ (c : Config) (w : Nat), w % 8 = 4 →
    ∃ bytes, decode c w = .command (.values bytes) ∧ bytes.length = c.dlen ∧
      ∀ j, j < c.dlen → bytes[j]? = some (BitVec.ofNat 8 (w / 2 ^ (8 * j + 3)))) ∧
  (∀ (s : State) (bytes : List Byte), s.phase = .idle → bytes.length = s.cfg.dlen →
    exec (.values bytes) s = .next { s with data := bytes } ∧
      ∀ j b, bytes[j]? = some b →
        nibbleOf bytes (2 * j) = some (b.extractLsb' 0 4) ∧ nibbleOf bytes (2 * j + 1) = some (b.extractLsb' 4 4))

/-- The model's choice (log 11): an operand of another length than R86 gives it, which no word carries, is refused by
name. -/
def Obligations.OperandOfWrongLengthIsRefused : Prop :=
  ∀ (s : State) (i : Instr), s.phase = .idle → i.wf s.cfg = false → exec i s = .refused .operandLength

/-- R150: SHOW, accepted, performs TAKE and nothing else. -/
def Obligations.ShowTakesTheResources : Prop :=
  (∀ (c : Config) (w : Nat), w % 8 = 5 → decode c w = .command .showFrame) ∧
  (∀ s : State, s.phase = .idle →
    ∃ t, exec .showFrame s = .next t ∧ t = { s with owner := .showOp, phase := .render, ri := 0 } ∧
      t.cmdReady = false)

/-- R67, R162, R213: while the block is not idle a command offered to it has no effect, no step writes the logical
state, and no step takes a word from the host's pending ones. -/
def Obligations.CommandsAreHeldWhileBusy : Prop :=
  ∀ s : State, s.phase ≠ .idle →
    (∀ i, exec i s = .next s) ∧
    (∀ t, step s = .next t → t.on = s.on ∧ t.points = s.points ∧ t.data = s.data ∧
      (t.pending = s.pending ∨ ∃ w, s.nextTurn = .host w ∧ t.pending = s.pending ++ [w]))

/-- R120, R123: the laws of the mutation family. ALLON is ON of all ones, ALLOFF is ON of all zeros; mutations of
different arrays commute; of two that write one array the later wins, so ALLON and ALLOFF do not commute and every
mutation is idempotent. -/
def Obligations.MutationsReplaceAndCommute : Prop :=
  ∀ s : State, s.phase = .idle →
    exec .allOn s = exec (.on (List.replicate s.cfg.n true)) s ∧
    exec .allOff s = exec (.on (List.replicate s.cfg.n false)) s ∧
    (∀ i j, i.wf s.cfg = true → j.wf s.cfg = true → (targetOf i).isSome → (targetOf j).isSome →
      targetOf i ≠ targetOf j → execBoth i j s = execBoth j i s) ∧
    (∀ i j, i.wf s.cfg = true → j.wf s.cfg = true → (targetOf i).isSome →
      targetOf i = targetOf j → execBoth i j s = exec j s) ∧
    execBoth .allOn .allOff s ≠ execBoth .allOff .allOn s

/-- R106: CONFIGURE. -/
def Obligations.ConfigureSetsTheLanes : Prop :=
  ∀ a : Accel, (configure a).Configured ∧ (configure a).accum = a.accum ∧ configure (configure a) = configure a

/-- R109: the law of LOOKUP, for every byte and every configured accelerator. -/
def Obligations.LookupSplitsEveryByte : Prop :=
  ∀ (a : Accel) (b : Byte), a.Configured →
    ∃ high low, lookup a b = .indices { a with accum := b } high low ∧
      low = b &&& 0x0F ∧ high = (b >>> 4) &&& 0x0F ∧ low.toNat < 16 ∧ high.toNat < 16 ∧
      b = (high <<< 4) ||| low ∧ ∀ b' acc', lookup a b' = .indices acc' high low → b' = b

/-- R103, R102, R104: the default table is the or of the masks of each conventional glyph; its entries are distinct;
it and the other candidate are complements in the seven segments. The glyphs are general knowledge (log 12). -/
def Obligations.DefaultTableShowsTheGlyphs : Prop :=
  segTableAH.map some = glyphs.map (fun gs => gs.head?.map patternOf) ∧ segTableAH.Nodup ∧
    Config.reference.segTable = segTableAH ∧ Config.reference.conventional = true ∧
    List.zipWith (· ||| ·) segTableAH segTableAL7 = List.replicate 16 0x7F ∧
    List.zipWith (· &&& ·) segTableAH segTableAL7 = List.replicate 16 0x00

/-- R133: the byte of one digit; bit 7 is the decimal point's, bits 6:0 the table entry's or zero. -/
def Obligations.DigitByteIsPointOrGlyph : Prop :=
  ∀ (s : State) (p : Nat) (idx point entry : Byte) (isOn : Bool),
    s.on[p]? = some isOn → s.points[p]? = some point → s.cfg.segTable[idx.toNat]? = some entry →
    ∃ b, digit s p idx = some b ∧ b = (if isOn then point ||| entry else point) ∧
      b.getLsbD 7 = point.getLsbD 7 ∧
      (point = 0x00 ∨ point = 0x80 → b &&& 0x7F = if isOn then entry else 0x00)

/-- R134, R136, R138: from `ri = 0`, the DLEN render steps write the closed form of R134 into the buffer, leave the
last data byte in the accumulator, and change nothing else. -/
def Obligations.RenderPassComputesTheClosedForm : Prop :=
  ∀ (s : State) (rest : List Turn), s.Shaped → s.acc.Configured → s.phase = .render → s.ri = 0 →
    s.sched = List.replicate s.cfg.dlen (.ctrl false) ++ rest →
    ∃ last, s.data[s.cfg.dlen - 1]? = some last ∧
      runFor s.cfg.dlen s =
        .next { s with bits := s.rendered, acc := { s.acc with accum := last }, ri := s.cfg.dlen, sched := rest } ∧
      ∀ p, p < s.cfg.n →
        ∃ isOn point b, s.on[p]? = some isOn ∧ s.points[p]? = some point ∧ s.data[p / 2]? = some b ∧
          s.rendered[p]? = some (point |||
            (if isOn then tableRead s.cfg (if p % 2 = 0 then lowNibble b else highNibble b) else 0x00))

/-- R134: digits do not influence each other: a digit's byte depends on its own `on`, `points` and nibble only. -/
def Obligations.DigitsDoNotInfluenceEachOther : Prop :=
  ∀ (c : Config) (on on' : List Bool) (points points' data data' : List Byte) (p : Nat), p < c.n →
    on[p]? = on'[p]? → points[p]? = points'[p]? → nibbleOf data p = nibbleOf data' p →
    (render c on points data)[p]? = (render c on' points' data')[p]?

/-- R135: with every digit off and every decimal point set, every byte is the decimal point alone, for every table and
all data. -/
def Obligations.DecimalPointsShowOnDigitsThatAreOff : Prop :=
  ∀ (c : Config) (data : List Byte),
    render c (List.replicate c.n false) (List.replicate c.n 0x80) data = List.replicate c.n 0x80

/-- R183, R189: a render step on an unconfigured accelerator raises `ACCEL_UNCONFIGURED` and does nothing else. No
reachable state is such (`EveryStepKeepsTheInvariant`). -/
def Obligations.UnconfiguredLookupFaults : Prop :=
  ∀ (s : State) (flushErr : Bool), s.phase = .render → s.nextTurn = .ctrl flushErr → s.ri < s.data.length →
    s.ri < s.cfg.dlen → s.acc.cfgDone = false →
    step s = .next { s.spendTurn with phase := .fault, cause := .accelUnconfigured }

/-- R153, R154, R155: with the render pass complete, one turn of CTRL drops the latch, logs it, and starts the
transfer. -/
def Obligations.CompleteRenderStartsTheTransfer : Prop :=
  ∀ (s : State) (flushErr : Bool), s.phase = .render → s.nextTurn = .ctrl flushErr → s.ri = s.cfg.dlen →
    step s = .next { s.spendTurn with
      latch := false, wire := s.wire ++ [.latchFall], owner := .xfer,
      chan := { active := true, idx := 0, done := false }, phase := .xmit, xsub := .dmaWait, ri := 0 }

/-- R68, R152: the latch falls, and a transfer starts, only when the render pass is complete; the buffer then holds
the bytes of that one pass. -/
def Obligations.NothingIsSentBeforeTheRenderIsComplete : Prop :=
  ∀ s t : State, step s = .next t →
    (s.latch = true ∧ t.latch = false ∨ s.chan.active = false ∧ t.chan.active = true) →
    s.phase = .render ∧ s.ri = s.cfg.dlen ∧ (s.FullInv → t.bits = s.rendered)

/-- R156: WAIT_CHAN holds CTRL until `chan.done`, then gives the resources back to the SHOW. -/
def Obligations.WaitChanHoldsUntilDone : Prop :=
  ∀ (s : State) (flushErr : Bool), s.phase = .xmit → s.xsub = .dmaWait → s.nextTurn = .ctrl flushErr →
    (s.chan.done = false → step s = .next s.spendTurn) ∧
    (s.chan.done = true → step s = .next { s.spendTurn with
      owner := .showOp, chan := { active := false, idx := 0, done := false }, xsub := .flushWait })

/-- R159, R160, R181, R187, R188: WAIT_FLUSH. A flush error raises `FLUSH_FAIL`, whatever the queue holds, and writes
nothing else; without one CTRL is held until the queue is empty, and then the latch rises and the resources return. -/
def Obligations.WaitFlushReleasesOrFaults : Prop :=
  ∀ (s : State) (flushErr : Bool), s.phase = .xmit → s.xsub = .flushWait → s.nextTurn = .ctrl flushErr →
    (flushErr = true → step s = .next { s.spendTurn with phase := .fault, cause := .flushFail }) ∧
    (flushErr = false → s.portQ ≠ [] → step s = .next s.spendTurn) ∧
    (flushErr = false → s.portQ = [] →
      ∃ t, step s = .next t ∧
        t = { s.spendTurn with
          latch := true, wire := s.wire ++ [.latchRise], owner := .ctrlSlots, phase := .idle, xsub := .dmaWait } ∧
        t.cmdReady = true ∧ t.busy = false)

/-- R164, R165: CHAN_MOVE pushes `bits[chan.idx]`, and the move of the last byte sets `chan.done`; where it is not
enabled a turn of CHAN changes nothing. -/
def Obligations.ChanMovePushesTheNextByte : Prop :=
  ∀ s : State, s.nextTurn = .chan →
    (s.chan.active = true → s.chan.done = false → s.chan.idx < s.cfg.n →
      s.portQ.length < s.cfg.portQueueDepth → ∀ b, s.bits[s.chan.idx]? = some b →
      step s = .next { s.spendTurn with
        portQ := s.portQ ++ [b],
        chan := { active := true, idx := s.chan.idx + 1, done := decide (s.chan.idx + 1 = s.cfg.n) } }) ∧
    ((s.chan.active = false ∨ s.chan.done = true ∨ s.cfg.n ≤ s.chan.idx ∨
      s.cfg.portQueueDepth ≤ s.portQ.length) → step s = .next s.spendTurn)

/-- R167: PORT_SHIFT puts the head of the queue on the wire, in every phase; with an empty queue a turn of PORT
changes nothing. -/
def Obligations.PortShiftsTheHeadInEveryPhase : Prop :=
  ∀ s : State, s.nextTurn = .port →
    (∀ b rest, s.portQ = b :: rest →
      step s = .next { s.spendTurn with portQ := rest, wire := s.wire ++ [.byte b] }) ∧
    (s.portQ = [] → step s = .next s.spendTurn)

/-- R158, R69: the latch rises only in the step that ends the second wait, with the queue empty and no flush error. -/
def Obligations.LatchRisesOnlyAfterBothWaits : Prop :=
  ∀ s t : State, step s = .next t → s.latch = false → t.latch = true →
    s.phase = .xmit ∧ s.xsub = .flushWait ∧ s.portQ = [] ∧ s.nextTurn = .ctrl false ∧ t.phase = .idle

/-- R80, R158, R161, R169: whenever the latch rises, the log has just gained one whole frame, and its bytes are those
the render pass makes of the logical state, in buffer order. -/
def Obligations.EveryReleasedFrameIsTheRenderedFrame : Prop :=
  ∀ s t : State, s.FullInv → step s = .next t → s.latch = false → t.latch = true →
    ∃ earlier, wirePos s.cfg.n earlier = some .between ∧ t.wire = earlier ++ frame (t.rendered) ∧
      t.bits = t.rendered

/-- R219, R169: no byte leaves while the latch is high. -/
def Obligations.BytesLeaveOnlyWhileTheLatchIsLow : Prop :=
  ∀ (s t : State) (b : Byte), s.FullInv → step s = .next t → t.wire = s.wire ++ [.byte b] →
    s.latch = false ∧ t.latch = false ∧ (s.safe → s.phase = .xmit)

/-- R28: the only transitions of `phase`, each with what takes it. -/
def Obligations.PhaseMovesOnlyAsListed : Prop :=
  ∀ s t : State, step s = .next t → t.phase ≠ s.phase →
    (s.phase = .idle ∧ t.phase = .render ∧
      ∃ w rest, s.pending = w :: rest ∧ decode s.cfg w = .command .showFrame) ∨
    (s.phase = .render ∧ t.phase = .xmit ∧ s.ri = s.cfg.dlen ∧ t.latch = false ∧ t.chan.active = true) ∨
    (s.phase = .xmit ∧ t.phase = .idle ∧ s.xsub = .flushWait ∧ s.portQ = [] ∧ t.latch = true ∧
      t.owner = .ctrlSlots) ∨
    (s.phase = .xmit ∧ t.phase = .fault ∧ s.xsub = .flushWait ∧ t.cause = .flushFail) ∨
    (s.phase = .idle ∧ t.phase = .fault ∧ t.cause = .illegalCmd ∧
      ∃ w rest, s.pending = w :: rest ∧ (w % 8 = 6 ∨ w % 8 = 7)) ∨
    (s.phase = .render ∧ t.phase = .fault ∧ t.cause = .accelUnconfigured ∧ s.acc.cfgDone = false)

/-- R34, R148, R63: the resources go round the loan, each move at its own step. -/
def Obligations.OwnershipGoesRoundTheLoan : Prop :=
  ∀ s t : State, s.Inv → step s = .next t → t.owner ≠ s.owner →
    (s.owner = .ctrlSlots ∧ t.owner = .showOp ∧ s.phase = .idle ∧ t.phase = .render) ∨
    (s.owner = .showOp ∧ t.owner = .xfer ∧ s.phase = .render ∧ t.phase = .xmit) ∨
    (s.owner = .xfer ∧ t.owner = .showOp ∧ s.xsub = .dmaWait ∧ t.xsub = .flushWait ∧ s.chan.done = true) ∨
    (s.owner = .showOp ∧ t.owner = .ctrlSlots ∧ s.phase = .xmit ∧ t.phase = .idle)

/-- R54, R70, R218: the buffer is written only by the render pass, while the SHOW holds it and the channel rests; bytes
enter the port queue only while the transfer holds the buffer, and the buffer does not change then. -/
def Obligations.TheBufferIsNeverShared : Prop :=
  ∀ s t : State, s.Inv → step s = .next t →
    (t.bits ≠ s.bits → s.phase = .render ∧ s.owner = .showOp ∧ s.chan.active = false) ∧
    (s.portQ.length < t.portQ.length → s.owner = .xfer ∧ t.bits = s.bits) ∧
    (s.owner = .ctrlSlots → t.bits = s.bits)

/-- R190, R168, R41 item 9: from a state in `FAULT`, no run of any length leaves it, clears or changes the cause,
accepts a word, or writes anything but the port queue, the channel, the log and the inputs; the log gains only bytes. -/
def Obligations.FaultIsFinal : Prop :=
  ∀ (s t : State) (k : Nat), s.phase = .fault → runFor k s = .next t →
    t.phase = .fault ∧ t.cause = s.cause ∧ t.on = s.on ∧ t.points = s.points ∧ t.data = s.data ∧ t.bits = s.bits ∧
      t.latch = s.latch ∧ t.owner = s.owner ∧ t.acc = s.acc ∧ t.xsub = s.xsub ∧ t.ri = s.ri ∧ t.cmdReady = false ∧
      (∃ words, t.pending = s.pending ++ words) ∧ (∃ bytes : List Byte, t.wire = s.wire ++ bytes.map .byte)

/-- R30: the codes of the causes; the cause is 0 at reset, is written only by fault entry and never cleared, and
is not 0 exactly in `FAULT`. -/
def Obligations.CauseIsWrittenOnceByFaultEntry : Prop :=
  Cause.none.code = 0 ∧ Cause.flushFail.code = 1 ∧ Cause.illegalCmd.code = 2 ∧ Cause.accelUnconfigured.code = 3 ∧
  (∀ c : Config, (State.resetOf c).cause.code = 0) ∧
  ∀ s : State, s.Inv → (s.cause.code ≠ 0 ↔ s.phase = .fault) ∧
    ∀ t, step s = .next t → t.cause ≠ s.cause → s.cause = .none ∧ s.phase ≠ .fault ∧ t.phase = .fault

/-- R29: the status flags and the outputs, as functions of the state. -/
def Obligations.StatusFlagsFollowTheState : Prop :=
  ∀ s : State,
    (s.busy = true ↔ s.phase ≠ .idle) ∧ (s.faulted = true ↔ s.phase = .fault) ∧
    (s.cmdReady = true ↔ s.phase = .idle) ∧ (s.portFlushed = true ↔ s.portQ = []) ∧
    s.outputs = { cmdReady := s.cmdReady, busy := s.busy, fault := s.faulted, cause := s.cause.code, latch := s.latch }

/-- R32, R38: no step changes a parameter, a lane register or `acc.cfg_done`. -/
def Obligations.ParametersAndLanesNeverChange : Prop :=
  ∀ s t : State, step s = .next t →
    t.cfg = s.cfg ∧ t.acc.cfgDone = s.acc.cfgDone ∧ t.acc.lane0 = s.acc.lane0 ∧ t.acc.lane1 = s.acc.lane1 ∧
      t.acc.sharedInput = s.acc.sharedInput

/-- R42: the state after reset, in every configuration, field by field; the rule gives `acc.accum` no value. -/
def Obligations.ResetValues : Prop :=
  ∀ c : Config, ∃ s : State, s = State.resetOf c ∧ s.cfg = c ∧
    s.on = List.replicate c.n false ∧ s.points = List.replicate c.n 0x00 ∧
    s.data = List.replicate c.dlen 0x00 ∧ s.bits = List.replicate c.n 0x00 ∧
    s.phase = .idle ∧ s.xsub = .dmaWait ∧ s.ri = 0 ∧ s.cause.code = 0 ∧ s.latch = true ∧
    s.acc.cfgDone = true ∧ s.acc.lane0 = { shift := 0, mask := 0x0F } ∧
    s.acc.lane1 = { shift := 4, mask := 0x0F } ∧ s.acc.sharedInput = true ∧ s.owner = .ctrlSlots ∧
    s.chan = { active := false, idx := 0, done := false } ∧ s.portQ = [] ∧ s.wire = []

/-- R206, R207: CONSTRUCT gives the reset state from any state, but for the accumulator, the log and the inputs, which
it does not write; so it appends no event. -/
def Obligations.ConstructGivesTheResetState : Prop :=
  ∀ s : State, construct s =
    { State.resetOf s.cfg with
      acc := { (State.resetOf s.cfg).acc with accum := s.acc.accum },
      wire := s.wire, pending := s.pending, sched := s.sched, tick := s.tick }

/-- R41 at reset: every invariant holds at `State.reset` and, whatever the inputs, in the reset state of every
configuration. -/
def Obligations.ResetMeetsTheInvariants : Prop :=
  State.reset.FullInv ∧ ∀ (c : Config) (pending : List Nat) (sched : List Turn) (tick : Nat),
    State.FullInv { State.resetOf c with pending := pending, sched := sched, tick := tick }

/-- R41: every step keeps the ten invariants, with the array lengths, the channel's progress and `ri` at rest
during a transfer. -/
def Obligations.EveryStepKeepsTheInvariant : Prop :=
  ∀ s t : State, s.Inv → step s = .next t → t.Inv

/-- R70, R80, R169: every step keeps the agreement of the log with the machine and of the buffer with the logical
state. -/
def Obligations.EveryStepKeepsTheLogAndTheBuffer : Prop :=
  ∀ s t : State, s.FullInv → step s = .next t → t.FullInv

/-- R56, R183, R107: under the invariant no step stops: no index is out of range, no lane input is undefined, no
operand has a wrong length. -/
def Obligations.NoStepStops : Prop :=
  ∀ s : State, s.Inv → ∃ t, step s = .next t

/-- R41: the ten invariants hold in every reachable state, item 9's second half included. -/
def Obligations.ReachableStatesMeetTheTenInvariants : Prop :=
  ∀ (c : Config) (s : State), Reachable c s →
    s.RuleInvariants ∧
    (s.phase = .fault → ∀ k t, runFor k s = .next t →
      t.phase = s.phase ∧ t.cause = s.cause ∧ t.on = s.on ∧ t.points = s.points ∧ t.data = s.data ∧
        t.bits = s.bits ∧ t.latch = s.latch ∧ t.owner = s.owner)

/-- R175: two states that differ only in what is displayed take the same control path: after a step they still agree
on all control state and on how much is queued and logged. -/
def Obligations.ControlPathIgnoresWhatIsDisplayed : Prop :=
  ∀ s s' t t' : State, s.Inv → s'.Inv → SameControl s s' → step s = .next t → step s' = .next t' → SameControl t t'

/-- R161: from an idle state with one SHOW pending, any turns that come in enough fair rounds (log 13), with no flush
error, finish it: exactly the rendered frame is appended to the log and the state is as R161 says. -/
def Obligations.FairTurnsCompleteAShow : Prop :=
  ∀ (s : State) (w : Nat) (rounds : List (List Turn)),
    s.FullInv → s.phase = .idle → s.pending = [w] → decode s.cfg w = .command .showFrame →
    s.sched = rounds.flatten → (∀ round ∈ rounds, FairRound round) → showSteps s.cfg ≤ rounds.length →
    ∃ t last, runFor rounds.flatten.length s = .next t ∧ s.data[s.cfg.dlen - 1]? = some last ∧
      t = { s with bits := s.rendered, wire := s.wire ++ frame s.rendered, acc := { s.acc with accum := last },
                   xsub := .dmaWait, pending := [], sched := [] }

/-- R65, R66, R124, R161, R174: the machine refines the sequential display. From an idle state with any legal command
words pending, any turns that come in enough fair rounds, with no flush error, run them all in order: the logical state
is that of applying the commands one after another, and the log gains, for each SHOW, the frame of the logical state
that SHOW found. -/
def Obligations.CommandsRunInOrderAsTheSequentialDisplay : Prop :=
  ∀ (s : State) (commands : List Instr) (rounds : List (List Turn)),
    s.FullInv → s.phase = .idle → s.pending.map (decode s.cfg) = commands.map .command →
    s.sched = rounds.flatten → (∀ round ∈ rounds, FairRound round) →
    commands.length * showSteps s.cfg ≤ rounds.length →
    ∃ t, runFor rounds.flatten.length s = .next t ∧ t.phase = .idle ∧ t.pending = [] ∧ t.cause = .none ∧
      t.logical = commands.foldl (Logical.after s.cfg) s.logical ∧
      t.wire = s.wire ++ framesOf s.cfg commands s.logical

/-- R10, R101, R102: the table of every configuration is legal: sixteen entries, bit 7 of each 0, the lit segments of
each, read through `LIT_LEVEL`, one of its digit's glyphs; and the other candidate of R104 is legal with `LIT_LEVEL = 0`
alone. That the variants R102 names are admitted is the model's choice (log 12). -/
def Obligations.EveryConfigurationHasALegalTable : Prop :=
  (∀ c : Config, c.segTable.length = 16 ∧
    ∀ d, d < 16 → ∃ p lits lit, c.segTable[d]? = some p ∧ p.getLsbD 7 = false ∧ glyphs[d]? = some lits ∧ lit ∈ lits ∧
      (if c.litLevel then p else 0x7F &&& ~~~p) = patternOf lit) ∧
  tableLegal true segTableAH = true ∧ tableLegal false segTableAL7 = true ∧ tableLegal true segTableAL7 = false

/-- R13, R38: an infinite run, whose turns come from outside, is what the machine does when its list of turns holds
them: `k` steps of the machine take its first state to its `k`-th. -/
def Obligations.RunsOfTurnsAreRunsOfTheMachine : Prop :=
  ∀ (turns : Nat → Turn) (states : Nat → State) (later : List Turn) (k : Nat), IsRun turns states →
    runFor k { states 0 with sched := (List.range k).map turns ++ later } = .next { states k with sched := later }

/-- R161, R173: in every weakly fair run, from every idle moment with a SHOW offered, and with no `flush_err` draw true
from then on, the SHOW ends: at some later moment exactly the rendered frame has been appended to the log and the state
is as R161 says, with the words HOST offered meanwhile pending. -/
def Obligations.WeaklyFairRunsCompleteAShow : Prop :=
  ∀ (turns : Nat → Turn) (states : Nat → State) (k w : Nat) (rest : List Nat),
    IsRun turns states → WeaklyFair turns states → NoFlushError turns states k →
    (states k).FullInv → (states k).phase = .idle → (states k).pending = w :: rest →
    decode (states k).cfg w = .command .showFrame →
    ∃ m words last, k < m ∧ (states k).data[(states k).cfg.dlen - 1]? = some last ∧
      (∀ word ∈ words, ∃ j, k ≤ j ∧ j < m ∧ turns j = .host word) ∧
      states m = { states k with
        bits := (states k).rendered, wire := (states k).wire ++ frame (states k).rendered,
        acc := { (states k).acc with accum := last }, xsub := .dmaWait, pending := rest ++ words }

/-- R65, R66, R124, R173: in every weakly fair run, from every idle moment with any legal command words pending, and
with no `flush_err` draw true from then on, all of them are run in order: at some moment the block is idle with no
fault, only words offered since are pending, the logical state is that of applying the commands one after another, and
the log has gained, for each SHOW, the frame of the logical state that SHOW found. -/
def Obligations.WeaklyFairRunsFollowTheSequentialDisplay : Prop :=
  ∀ (turns : Nat → Turn) (states : Nat → State) (k : Nat) (commands : List Instr),
    IsRun turns states → WeaklyFair turns states → NoFlushError turns states k →
    (states k).FullInv → (states k).phase = .idle →
    (states k).pending.map (decode (states k).cfg) = commands.map .command →
    ∃ m, k ≤ m ∧ (states m).phase = .idle ∧ (states m).cause = .none ∧
      (∀ word ∈ (states m).pending, ∃ j, k ≤ j ∧ j < m ∧ turns j = .host word) ∧
      (states m).logical = commands.foldl (Logical.after (states k).cfg) (states k).logical ∧
      (states m).wire = (states k).wire ++ framesOf (states k).cfg commands (states k).logical
end

