-- ==== Sys2Proof/Laws/Config.lean ====
section
/-! SUPPORT. What the legality of a configuration gives (00_scope.md R7, R12; 40_encoder.md R101). -/

namespace Sys2Proof

theorem Config.legal_parts (c : Config) :
    c.n % 2 = 0 ∧ 2 ≤ c.n ∧ 1 ≤ c.portQueueDepth ∧ c.segTable.length = 16 ∧
      ∀ p ∈ c.segTable, p.getLsbD 7 = false := by
  have h := c.legal
  simp only [Config.isLegal, tableLegal, Bool.and_eq_true, beq_iff_eq, decide_eq_true_eq, List.all_eq_true,
    Bool.not_eq_true'] at h
  obtain ⟨⟨⟨h1, h2⟩, h3⟩, ⟨h4, h5⟩, -⟩ := h
  exact ⟨h1, h2, h3, h4, h5⟩

/-- Every configuration's table shows the glyphs (R101 item 2). -/
theorem Config.conventional_of_legal (c : Config) : c.conventional = true := by
  have h := c.legal
  simp only [Config.isLegal, tableLegal, Bool.and_eq_true] at h
  exact h.2.2

theorem Config.two_mul_dlen (c : Config) : 2 * c.dlen = c.n := by
  have h := c.legal_parts.1
  unfold Config.dlen
  omega

theorem Config.dlen_pos (c : Config) : 0 < c.dlen := by
  have h1 := c.two_mul_dlen
  have h2 := c.legal_parts.2.1
  omega

theorem Config.segTable_get (c : Config) (k : Nat) (h : k < 16) :
    ∃ p, c.segTable[k]? = some p ∧ p.getLsbD 7 = false := by
  obtain ⟨-, -, -, hlen, hbit⟩ := c.legal_parts
  have hk : k < c.segTable.length := by omega
  exact ⟨c.segTable[k], by simp [hk], hbit _ (List.getElem_mem hk)⟩

end Sys2Proof
end

