-- ==== Sys2Proof/Laws/State.lean ====
section
/-! SUPPORT. The small lemmas of the state updates: one per field per update, so that no proof unfolds an update. -/

namespace Sys2Proof.Machine

@[simp] theorem raise_cfg (c : Cause) (s : State) : (raise c s).cfg = s.cfg := rfl
@[simp] theorem raise_on (c : Cause) (s : State) : (raise c s).on = s.on := rfl
@[simp] theorem raise_points (c : Cause) (s : State) : (raise c s).points = s.points := rfl
@[simp] theorem raise_data (c : Cause) (s : State) : (raise c s).data = s.data := rfl
@[simp] theorem raise_bits (c : Cause) (s : State) : (raise c s).bits = s.bits := rfl
@[simp] theorem raise_phase (c : Cause) (s : State) : (raise c s).phase = .fault := rfl
@[simp] theorem raise_xsub (c : Cause) (s : State) : (raise c s).xsub = s.xsub := rfl
@[simp] theorem raise_ri (c : Cause) (s : State) : (raise c s).ri = s.ri := rfl
@[simp] theorem raise_cause (c : Cause) (s : State) : (raise c s).cause = c := rfl
@[simp] theorem raise_latch (c : Cause) (s : State) : (raise c s).latch = s.latch := rfl
@[simp] theorem raise_acc (c : Cause) (s : State) : (raise c s).acc = s.acc := rfl
@[simp] theorem raise_owner (c : Cause) (s : State) : (raise c s).owner = s.owner := rfl
@[simp] theorem raise_chan (c : Cause) (s : State) : (raise c s).chan = s.chan := rfl
@[simp] theorem raise_portQ (c : Cause) (s : State) : (raise c s).portQ = s.portQ := rfl
@[simp] theorem raise_wire (c : Cause) (s : State) : (raise c s).wire = s.wire := rfl
@[simp] theorem raise_pending (c : Cause) (s : State) : (raise c s).pending = s.pending := rfl
@[simp] theorem raise_sched (c : Cause) (s : State) : (raise c s).sched = s.sched := rfl
@[simp] theorem raise_tick (c : Cause) (s : State) : (raise c s).tick = s.tick := rfl

@[simp] theorem wireEmit_cfg (e : Event) (s : State) : (wireEmit e s).cfg = s.cfg := rfl
@[simp] theorem wireEmit_on (e : Event) (s : State) : (wireEmit e s).on = s.on := rfl
@[simp] theorem wireEmit_points (e : Event) (s : State) : (wireEmit e s).points = s.points := rfl
@[simp] theorem wireEmit_data (e : Event) (s : State) : (wireEmit e s).data = s.data := rfl
@[simp] theorem wireEmit_bits (e : Event) (s : State) : (wireEmit e s).bits = s.bits := rfl
@[simp] theorem wireEmit_phase (e : Event) (s : State) : (wireEmit e s).phase = s.phase := rfl
@[simp] theorem wireEmit_xsub (e : Event) (s : State) : (wireEmit e s).xsub = s.xsub := rfl
@[simp] theorem wireEmit_ri (e : Event) (s : State) : (wireEmit e s).ri = s.ri := rfl
@[simp] theorem wireEmit_cause (e : Event) (s : State) : (wireEmit e s).cause = s.cause := rfl
@[simp] theorem wireEmit_latch (e : Event) (s : State) : (wireEmit e s).latch = s.latch := rfl
@[simp] theorem wireEmit_acc (e : Event) (s : State) : (wireEmit e s).acc = s.acc := rfl
@[simp] theorem wireEmit_owner (e : Event) (s : State) : (wireEmit e s).owner = s.owner := rfl
@[simp] theorem wireEmit_chan (e : Event) (s : State) : (wireEmit e s).chan = s.chan := rfl
@[simp] theorem wireEmit_portQ (e : Event) (s : State) : (wireEmit e s).portQ = s.portQ := rfl
@[simp] theorem wireEmit_wire (e : Event) (s : State) : (wireEmit e s).wire = s.wire ++ [e] := rfl
@[simp] theorem wireEmit_pending (e : Event) (s : State) : (wireEmit e s).pending = s.pending := rfl
@[simp] theorem wireEmit_sched (e : Event) (s : State) : (wireEmit e s).sched = s.sched := rfl
@[simp] theorem wireEmit_tick (e : Event) (s : State) : (wireEmit e s).tick = s.tick := rfl

@[simp] theorem portPush_cfg (b : Byte) (s : State) : (portPush b s).cfg = s.cfg := rfl
@[simp] theorem portPush_on (b : Byte) (s : State) : (portPush b s).on = s.on := rfl
@[simp] theorem portPush_points (b : Byte) (s : State) : (portPush b s).points = s.points := rfl
@[simp] theorem portPush_data (b : Byte) (s : State) : (portPush b s).data = s.data := rfl
@[simp] theorem portPush_bits (b : Byte) (s : State) : (portPush b s).bits = s.bits := rfl
@[simp] theorem portPush_phase (b : Byte) (s : State) : (portPush b s).phase = s.phase := rfl
@[simp] theorem portPush_xsub (b : Byte) (s : State) : (portPush b s).xsub = s.xsub := rfl
@[simp] theorem portPush_ri (b : Byte) (s : State) : (portPush b s).ri = s.ri := rfl
@[simp] theorem portPush_cause (b : Byte) (s : State) : (portPush b s).cause = s.cause := rfl
@[simp] theorem portPush_latch (b : Byte) (s : State) : (portPush b s).latch = s.latch := rfl
@[simp] theorem portPush_acc (b : Byte) (s : State) : (portPush b s).acc = s.acc := rfl
@[simp] theorem portPush_owner (b : Byte) (s : State) : (portPush b s).owner = s.owner := rfl
@[simp] theorem portPush_chan (b : Byte) (s : State) : (portPush b s).chan = s.chan := rfl
@[simp] theorem portPush_portQ (b : Byte) (s : State) : (portPush b s).portQ = s.portQ ++ [b] := rfl
@[simp] theorem portPush_wire (b : Byte) (s : State) : (portPush b s).wire = s.wire := rfl
@[simp] theorem portPush_pending (b : Byte) (s : State) : (portPush b s).pending = s.pending := rfl
@[simp] theorem portPush_sched (b : Byte) (s : State) : (portPush b s).sched = s.sched := rfl
@[simp] theorem portPush_tick (b : Byte) (s : State) : (portPush b s).tick = s.tick := rfl

@[simp] theorem take_cfg (s : State) : (take s).cfg = s.cfg := rfl
@[simp] theorem take_on (s : State) : (take s).on = s.on := rfl
@[simp] theorem take_points (s : State) : (take s).points = s.points := rfl
@[simp] theorem take_data (s : State) : (take s).data = s.data := rfl
@[simp] theorem take_bits (s : State) : (take s).bits = s.bits := rfl
@[simp] theorem take_phase (s : State) : (take s).phase = .render := rfl
@[simp] theorem take_xsub (s : State) : (take s).xsub = s.xsub := rfl
@[simp] theorem take_ri (s : State) : (take s).ri = 0 := rfl
@[simp] theorem take_cause (s : State) : (take s).cause = s.cause := rfl
@[simp] theorem take_latch (s : State) : (take s).latch = s.latch := rfl
@[simp] theorem take_acc (s : State) : (take s).acc = s.acc := rfl
@[simp] theorem take_owner (s : State) : (take s).owner = .showOp := rfl
@[simp] theorem take_chan (s : State) : (take s).chan = s.chan := rfl
@[simp] theorem take_portQ (s : State) : (take s).portQ = s.portQ := rfl
@[simp] theorem take_wire (s : State) : (take s).wire = s.wire := rfl
@[simp] theorem take_pending (s : State) : (take s).pending = s.pending := rfl
@[simp] theorem take_sched (s : State) : (take s).sched = s.sched := rfl
@[simp] theorem take_tick (s : State) : (take s).tick = s.tick := rfl

@[simp] theorem latchLow_cfg (s : State) : (latchLow s).cfg = s.cfg := rfl
@[simp] theorem latchLow_on (s : State) : (latchLow s).on = s.on := rfl
@[simp] theorem latchLow_points (s : State) : (latchLow s).points = s.points := rfl
@[simp] theorem latchLow_data (s : State) : (latchLow s).data = s.data := rfl
@[simp] theorem latchLow_bits (s : State) : (latchLow s).bits = s.bits := rfl
@[simp] theorem latchLow_phase (s : State) : (latchLow s).phase = s.phase := rfl
@[simp] theorem latchLow_xsub (s : State) : (latchLow s).xsub = s.xsub := rfl
@[simp] theorem latchLow_ri (s : State) : (latchLow s).ri = s.ri := rfl
@[simp] theorem latchLow_cause (s : State) : (latchLow s).cause = s.cause := rfl
@[simp] theorem latchLow_latch (s : State) : (latchLow s).latch = false := rfl
@[simp] theorem latchLow_acc (s : State) : (latchLow s).acc = s.acc := rfl
@[simp] theorem latchLow_owner (s : State) : (latchLow s).owner = s.owner := rfl
@[simp] theorem latchLow_chan (s : State) : (latchLow s).chan = s.chan := rfl
@[simp] theorem latchLow_portQ (s : State) : (latchLow s).portQ = s.portQ := rfl
@[simp] theorem latchLow_wire (s : State) : (latchLow s).wire = s.wire ++ [.latchFall] := rfl
@[simp] theorem latchLow_pending (s : State) : (latchLow s).pending = s.pending := rfl
@[simp] theorem latchLow_sched (s : State) : (latchLow s).sched = s.sched := rfl
@[simp] theorem latchLow_tick (s : State) : (latchLow s).tick = s.tick := rfl

@[simp] theorem xferStart_cfg (s : State) : (xferStart s).cfg = s.cfg := rfl
@[simp] theorem xferStart_on (s : State) : (xferStart s).on = s.on := rfl
@[simp] theorem xferStart_points (s : State) : (xferStart s).points = s.points := rfl
@[simp] theorem xferStart_data (s : State) : (xferStart s).data = s.data := rfl
@[simp] theorem xferStart_bits (s : State) : (xferStart s).bits = s.bits := rfl
@[simp] theorem xferStart_phase (s : State) : (xferStart s).phase = .xmit := rfl
@[simp] theorem xferStart_xsub (s : State) : (xferStart s).xsub = .dmaWait := rfl
@[simp] theorem xferStart_ri (s : State) : (xferStart s).ri = 0 := rfl
@[simp] theorem xferStart_cause (s : State) : (xferStart s).cause = s.cause := rfl
@[simp] theorem xferStart_latch (s : State) : (xferStart s).latch = s.latch := rfl
@[simp] theorem xferStart_acc (s : State) : (xferStart s).acc = s.acc := rfl
@[simp] theorem xferStart_owner (s : State) : (xferStart s).owner = .xfer := rfl
@[simp] theorem xferStart_chan (s : State) : (xferStart s).chan = { active := true, idx := 0, done := false } := rfl
@[simp] theorem xferStart_portQ (s : State) : (xferStart s).portQ = s.portQ := rfl
@[simp] theorem xferStart_wire (s : State) : (xferStart s).wire = s.wire := rfl
@[simp] theorem xferStart_pending (s : State) : (xferStart s).pending = s.pending := rfl
@[simp] theorem xferStart_sched (s : State) : (xferStart s).sched = s.sched := rfl
@[simp] theorem xferStart_tick (s : State) : (xferStart s).tick = s.tick := rfl

@[simp] theorem waitChan_cfg (s : State) : (waitChan s).cfg = s.cfg := rfl
@[simp] theorem waitChan_on (s : State) : (waitChan s).on = s.on := rfl
@[simp] theorem waitChan_points (s : State) : (waitChan s).points = s.points := rfl
@[simp] theorem waitChan_data (s : State) : (waitChan s).data = s.data := rfl
@[simp] theorem waitChan_bits (s : State) : (waitChan s).bits = s.bits := rfl
@[simp] theorem waitChan_phase (s : State) : (waitChan s).phase = s.phase := rfl
@[simp] theorem waitChan_xsub (s : State) : (waitChan s).xsub = .flushWait := rfl
@[simp] theorem waitChan_ri (s : State) : (waitChan s).ri = s.ri := rfl
@[simp] theorem waitChan_cause (s : State) : (waitChan s).cause = s.cause := rfl
@[simp] theorem waitChan_latch (s : State) : (waitChan s).latch = s.latch := rfl
@[simp] theorem waitChan_acc (s : State) : (waitChan s).acc = s.acc := rfl
@[simp] theorem waitChan_owner (s : State) : (waitChan s).owner = .showOp := rfl
@[simp] theorem waitChan_chan (s : State) : (waitChan s).chan = { active := false, idx := 0, done := false } := rfl
@[simp] theorem waitChan_portQ (s : State) : (waitChan s).portQ = s.portQ := rfl
@[simp] theorem waitChan_wire (s : State) : (waitChan s).wire = s.wire := rfl
@[simp] theorem waitChan_pending (s : State) : (waitChan s).pending = s.pending := rfl
@[simp] theorem waitChan_sched (s : State) : (waitChan s).sched = s.sched := rfl
@[simp] theorem waitChan_tick (s : State) : (waitChan s).tick = s.tick := rfl

@[simp] theorem latchHighReturn_cfg (s : State) : (latchHighReturn s).cfg = s.cfg := rfl
@[simp] theorem latchHighReturn_on (s : State) : (latchHighReturn s).on = s.on := rfl
@[simp] theorem latchHighReturn_points (s : State) : (latchHighReturn s).points = s.points := rfl
@[simp] theorem latchHighReturn_data (s : State) : (latchHighReturn s).data = s.data := rfl
@[simp] theorem latchHighReturn_bits (s : State) : (latchHighReturn s).bits = s.bits := rfl
@[simp] theorem latchHighReturn_phase (s : State) : (latchHighReturn s).phase = .idle := rfl
@[simp] theorem latchHighReturn_xsub (s : State) : (latchHighReturn s).xsub = .dmaWait := rfl
@[simp] theorem latchHighReturn_ri (s : State) : (latchHighReturn s).ri = s.ri := rfl
@[simp] theorem latchHighReturn_cause (s : State) : (latchHighReturn s).cause = s.cause := rfl
@[simp] theorem latchHighReturn_latch (s : State) : (latchHighReturn s).latch = true := rfl
@[simp] theorem latchHighReturn_acc (s : State) : (latchHighReturn s).acc = s.acc := rfl
@[simp] theorem latchHighReturn_owner (s : State) : (latchHighReturn s).owner = .ctrlSlots := rfl
@[simp] theorem latchHighReturn_chan (s : State) : (latchHighReturn s).chan = s.chan := rfl
@[simp] theorem latchHighReturn_portQ (s : State) : (latchHighReturn s).portQ = s.portQ := rfl
@[simp] theorem latchHighReturn_wire (s : State) : (latchHighReturn s).wire = s.wire ++ [.latchRise] := rfl
@[simp] theorem latchHighReturn_pending (s : State) : (latchHighReturn s).pending = s.pending := rfl
@[simp] theorem latchHighReturn_sched (s : State) : (latchHighReturn s).sched = s.sched := rfl
@[simp] theorem latchHighReturn_tick (s : State) : (latchHighReturn s).tick = s.tick := rfl

@[simp] theorem spendTurn_cfg (s : State) : s.spendTurn.cfg = s.cfg := by
  unfold State.spendTurn; split <;> rfl
@[simp] theorem spendTurn_on (s : State) : s.spendTurn.on = s.on := by
  unfold State.spendTurn; split <;> rfl
@[simp] theorem spendTurn_points (s : State) : s.spendTurn.points = s.points := by
  unfold State.spendTurn; split <;> rfl
@[simp] theorem spendTurn_data (s : State) : s.spendTurn.data = s.data := by
  unfold State.spendTurn; split <;> rfl
@[simp] theorem spendTurn_bits (s : State) : s.spendTurn.bits = s.bits := by
  unfold State.spendTurn; split <;> rfl
@[simp] theorem spendTurn_phase (s : State) : s.spendTurn.phase = s.phase := by
  unfold State.spendTurn; split <;> rfl
@[simp] theorem spendTurn_xsub (s : State) : s.spendTurn.xsub = s.xsub := by
  unfold State.spendTurn; split <;> rfl
@[simp] theorem spendTurn_ri (s : State) : s.spendTurn.ri = s.ri := by
  unfold State.spendTurn; split <;> rfl
@[simp] theorem spendTurn_cause (s : State) : s.spendTurn.cause = s.cause := by
  unfold State.spendTurn; split <;> rfl
@[simp] theorem spendTurn_latch (s : State) : s.spendTurn.latch = s.latch := by
  unfold State.spendTurn; split <;> rfl
@[simp] theorem spendTurn_acc (s : State) : s.spendTurn.acc = s.acc := by
  unfold State.spendTurn; split <;> rfl
@[simp] theorem spendTurn_owner (s : State) : s.spendTurn.owner = s.owner := by
  unfold State.spendTurn; split <;> rfl
@[simp] theorem spendTurn_chan (s : State) : s.spendTurn.chan = s.chan := by
  unfold State.spendTurn; split <;> rfl
@[simp] theorem spendTurn_portQ (s : State) : s.spendTurn.portQ = s.portQ := by
  unfold State.spendTurn; split <;> rfl
@[simp] theorem spendTurn_wire (s : State) : s.spendTurn.wire = s.wire := by
  unfold State.spendTurn; split <;> rfl
@[simp] theorem spendTurn_pending (s : State) : s.spendTurn.pending = s.pending := by
  unfold State.spendTurn; split <;> rfl

@[simp] theorem spendTurn_cons (s : State) (t : Turn) (ts : List Turn) (h : s.sched = t :: ts) :
    s.spendTurn = { s with sched := ts } := by
  simp [State.spendTurn, h]

@[simp] theorem nextTurn_cons (s : State) (t : Turn) (ts : List Turn) (h : s.sched = t :: ts) : s.nextTurn = t := by
  simp [State.nextTurn, h]

@[simp] theorem present_nextTurn (s : State) (w : Nat) : (s.present w).nextTurn = .ctrl false := rfl
@[simp] theorem present_spendTurn (s : State) (w : Nat) :
    (s.present w).spendTurn = { s with pending := w :: s.pending } := rfl
@[simp] theorem present_phase (s : State) (w : Nat) : (s.present w).phase = s.phase := rfl
@[simp] theorem present_cfg (s : State) (w : Nat) : (s.present w).cfg = s.cfg := rfl

@[simp] theorem configure_accum (a : Accel) : (configure a).accum = a.accum := rfl
@[simp] theorem construct_cfg (s : State) : (construct s).cfg = s.cfg := rfl
@[simp] theorem construct_wire (s : State) : (construct s).wire = s.wire := rfl
@[simp] theorem construct_accum (s : State) : (construct s).acc.accum = s.acc.accum := rfl

end Sys2Proof.Machine
end

