-- ==== Sys2Proof/Laws/Ops.lean ====
section
/-! SUPPORT. One lemma per shared operation: all it can do. Proofs cite these and do not unfold the operations. -/

namespace Sys2Proof.Machine

theorem memWrite_some {p : Nat} {v : Byte} {s t : State} (h : memWrite p v s = some t) :
    p < s.bits.length ∧ t = { s with bits := s.bits.set p v } := by
  unfold memWrite at h
  split at h
  · exact ⟨‹_›, by simpa using h.symm⟩
  · cases h

theorem accept_next {f : State → State} {s t : State} (h : accept f s = .next t) :
    (s.phase = .idle ∧ t = f s) ∨ (s.phase ≠ .idle ∧ t = s) := by
  unfold accept at h
  split at h <;> cases h
  · exact .inl ⟨‹_›, rfl⟩
  · exact .inr ⟨‹_›, rfl⟩

theorem acceptSized_next {len want : Nat} {f : State → State} {s t : State}
    (h : acceptSized len want f s = .next t) :
    (s.phase = .idle ∧ len = want ∧ t = f s) ∨ (s.phase ≠ .idle ∧ t = s) := by
  unfold acceptSized at h
  split at h
  · split at h <;> cases h
    exact .inl ⟨‹_›, ‹_›, rfl⟩
  · cases h
    exact .inr ⟨‹_›, rfl⟩

/-- All a command can do in a state that accepts it (R117 to R122, R150), and that it does nothing in another (R83). -/
inductive ExecMove (s : State) : State → Prop where
  | held (busy : s.phase ≠ .idle) : ExecMove s s
  | on (ready : s.phase = .idle) (mask : List Bool) (len : mask.length = s.cfg.n) : ExecMove s { s with on := mask }
  | points (ready : s.phase = .idle) (mask : List Bool) (len : mask.length = s.cfg.n) :
      ExecMove s { s with points := pointsOf mask }
  | data (ready : s.phase = .idle) (bytes : List Byte) (len : bytes.length = s.cfg.dlen) :
      ExecMove s { s with data := bytes }
  | taken (ready : s.phase = .idle) : ExecMove s (take s)

theorem exec_move {i : Instr} {s t : State} (h : exec i s = .next t) : ExecMove s t := by
  cases i with
  | allOn =>
    unfold exec execAllOn at h
    obtain ⟨r, rfl⟩ | ⟨r, rfl⟩ := accept_next h
    · exact .on r _ (by simp)
    · exact .held r
  | allOff =>
    unfold exec execAllOff at h
    obtain ⟨r, rfl⟩ | ⟨r, rfl⟩ := accept_next h
    · exact .on r _ (by simp)
    · exact .held r
  | on mask =>
    unfold exec execOn at h
    obtain ⟨r, l, rfl⟩ | ⟨r, rfl⟩ := acceptSized_next h
    · exact .on r _ l
    · exact .held r
  | dPoints mask =>
    unfold exec execDPoints at h
    obtain ⟨r, l, rfl⟩ | ⟨r, rfl⟩ := acceptSized_next h
    · exact .points r _ l
    · exact .held r
  | values bytes =>
    unfold exec execValues at h
    obtain ⟨r, l, rfl⟩ | ⟨r, rfl⟩ := acceptSized_next h
    · exact .data r _ l
    · exact .held r
  | showFrame =>
    unfold exec execShow at h
    obtain ⟨r, rfl⟩ | ⟨r, rfl⟩ := accept_next h
    · exact .taken r
    · exact .held r

/-- All a command stops on: an operand of the wrong length (R86). -/
theorem exec_stops_only_on_length {i : Instr} {s : State} (h : i.wf s.cfg = true) : ∃ t, exec i s = .next t := by
  cases i <;>
    simp_all [exec, execAllOn, execAllOff, execOn, execDPoints, execValues, execShow, accept, acceptSized, Instr.wf] <;>
    split <;> exact ⟨_, rfl⟩

theorem decode_command_wf {c : Config} {w : Nat} {i : Instr} (h : decode c w = .command i) : i.wf c = true := by
  unfold decode at h
  split at h <;> cases h <;> simp [Instr.wf, maskOperand, bytesOperand]

theorem decode_illegal_iff {c : Config} {w op : Nat} : decode c w = .illegal op ↔ w % 8 = op ∧ (op = 6 ∨ op = 7) := by
  have hlt : w % 8 < 8 := Nat.mod_lt _ (by decide)
  unfold decode opField
  split <;> simp_all <;> omega

theorem decode_show_iff {c : Config} {w : Nat} : decode c w = .command .showFrame ↔ w % 8 = 5 := by
  unfold decode opField
  split <;> simp_all

/-- What `digit` answers inside the arrays, for a lane result below 16 (R133). -/
theorem digit_some {s : State} {p : Nat} {idx : Byte} (hs : p < s.on.length) (hp : p < s.points.length)
    (hi : idx.toNat < 16) :
    ∃ entry, s.cfg.segTable[idx.toNat]? = some entry ∧
      digit s p idx = some (if s.on[p] then s.points[p] ||| entry else s.points[p]) := by
  obtain ⟨entry, he, -⟩ := s.cfg.segTable_get _ hi
  refine ⟨entry, he, ?_⟩
  unfold digit
  rw [List.getElem?_eq_getElem hs, List.getElem?_eq_getElem hp]
  cases s.on[p] <;> simp [he]

/-- `digit` reads `on`, `points` and the table only (R134). -/
theorem digit_acc (s : State) (acc : Accel) (p : Nat) (idx : Byte) : digit { s with acc := acc } p idx = digit s p idx :=
  rfl

theorem laneResult_low (b : Byte) : laneResult b { shift := 0, mask := 0x0F } = b &&& 0x0F := by
  simp [laneResult]

theorem laneResult_high (b : Byte) : laneResult b { shift := 4, mask := 0x0F } = (b >>> 4) &&& 0x0F := rfl

theorem and_0F_lt (b : Byte) : (b &&& 0x0F).toNat < 16 := by
  have h : (b &&& 0x0F).toNat ≤ 15 := by
    rw [BitVec.toNat_and]
    exact Nat.and_le_right
  omega

/-- All a successful render step's writes can do: two elements of `bits` are replaced, by the bytes of the two digits
(R131, R133). -/
theorem writeDigits_some {i : Nat} {high low : Byte} {s t : State} (h : writeDigits i high low s = some t) :
    ∃ x y, digit s (2 * i) low = some x ∧ digit s (2 * i + 1) high = some y ∧ 2 * i + 1 < s.bits.length ∧
      t = { s with bits := (s.bits.set (2 * i) x).set (2 * i + 1) y } := by
  unfold writeDigits at h
  split at h
  · rename_i x y hx hy
    rw [Option.bind_eq_some_iff] at h
    obtain ⟨u, hu, hv⟩ := h
    obtain ⟨-, rfl⟩ := memWrite_some hu
    obtain ⟨hlt, rfl⟩ := memWrite_some hv
    exact ⟨x, y, hx, hy, by simpa using hlt, rfl⟩
  · cases h

/-- All a render step can do when it answers a next state (R132, R183). -/
theorem renderStep_next {s t : State} (h : renderStep s = .next t) :
    (s.acc.cfgDone = false ∧ t = raise .accelUnconfigured s) ∨
    (∃ b x y, s.acc.cfgDone = true ∧ s.acc.sharedInput = true ∧ s.data[s.ri]? = some b ∧
      digit s (2 * s.ri) (laneResult b s.acc.lane0) = some x ∧
      digit s (2 * s.ri + 1) (laneResult b s.acc.lane1) = some y ∧
      2 * s.ri + 1 < s.bits.length ∧
      t = { s with acc := { s.acc with accum := b },
                   bits := (s.bits.set (2 * s.ri) x).set (2 * s.ri + 1) y, ri := s.ri + 1 }) := by
  unfold renderStep at h
  split at h
  · cases h
  · rename_i b hb
    unfold lookup at h
    split at h
    · rename_i hc
      split at hc
      · rename_i hd
        split at hc <;> cases hc
      · rename_i hd
        cases h
        exact .inl ⟨by simpa using hd, rfl⟩
    · rename_i hc
      cases h
    · rename_i acc high low hc
      split at hc
      · rename_i hd
        split at hc
        · rename_i hi
          cases hc
          split at h
          · cases h
          · rename_i s' hs'
            cases h
            obtain ⟨x, y, hx, hy, hlt, rfl⟩ := writeDigits_some hs'
            exact .inr ⟨b, x, y, hd, hi, hb, hx, hy, hlt, rfl⟩
        · cases hc
      · cases hc

/-- All a turn of CHAN can do (R164). -/
theorem chanMove_next {s t : State} (h : chanMove s = .next t) :
    (chanMoveEnabled s = false ∧ t = s) ∨
    (∃ b, s.chan.active = true ∧ s.chan.done = false ∧ s.chan.idx < s.cfg.n ∧
      s.portQ.length < s.cfg.portQueueDepth ∧ s.bits[s.chan.idx]? = some b ∧
      t = { s with portQ := s.portQ ++ [b],
                   chan := { active := true, idx := s.chan.idx + 1, done := decide (s.chan.idx + 1 = s.cfg.n) } }) := by
  unfold chanMove at h
  split at h
  · rename_i he
    simp only [chanMoveEnabled, Bool.and_eq_true, Bool.not_eq_true', decide_eq_true_eq] at he
    obtain ⟨⟨⟨ha, hd⟩, hi⟩, hq⟩ := he
    split at h
    · cases h
    · rename_i b hb
      cases h
      refine .inr ⟨b, ha, hd, hi, hq, hb, ?_⟩
      simp [portPush, ha, hd, beq_eq_decide]
  · cases h
    exact .inl ⟨Bool.eq_false_of_not_eq_true ‹_›, rfl⟩

/-- All a turn of PORT can do (R167). -/
theorem portShift_cases (s : State) :
    (s.portQ = [] ∧ portShift s = s) ∨
    (∃ b rest, s.portQ = b :: rest ∧
      portShift s = { s with portQ := rest, wire := s.wire ++ [.byte b] }) := by
  unfold portShift
  split
  · exact .inl ⟨‹_›, rfl⟩
  · exact .inr ⟨_, _, ‹_›, rfl⟩

end Sys2Proof.Machine
end

