-- ==== Sys2Proof/Laws/PerInstr.lean ====
section
/-! SUPPORT. The families of statements made instruction by instruction. `EncodeFits`: the word of a well-formed
command fits the command port, and its `op` field is the command's opcode (30_encoding.md R82, R84). -/

namespace Sys2Proof.Laws

theorem maskArg_lt (mask : List Bool) : maskArg mask < 2 ^ mask.length := by
  induction mask with
  | nil => decide
  | cons b rest ih =>
    have hb : b.toNat ≤ 1 := Bool.toNat_le b
    simp only [maskArg, List.foldr_cons, List.length_cons, Nat.pow_succ] at *
    omega

theorem bytesArg_lt (bytes : List Byte) : bytesArg bytes < 2 ^ (8 * bytes.length) := by
  induction bytes with
  | nil => decide
  | cons b rest ih =>
    have hb : b.toNat < 256 := b.isLt
    have hp : 2 ^ (8 * (rest.length + 1)) = 256 * 2 ^ (8 * rest.length) := by
      rw [Nat.mul_add, Nat.pow_add, Nat.mul_comm]
    simp only [bytesArg, List.foldr_cons, List.length_cons] at *
    omega

/-- What the family says of a command. -/
def EncodeFits.Statement (i : Instr) : Prop :=
  ∀ c : Config, i.wf c = true → encode i < 2 ^ c.wordWidth ∧ opField (encode i) = opcode i

/-- It is enough that the argument fits its `4*N` bits. -/
theorem EncodeFits.of_arg {i : Instr} (h : ∀ c : Config, i.wf c = true → argOf i < 2 ^ (4 * c.n)) :
    EncodeFits.Statement i := by
  intro c hw
  have harg := h c hw
  have hop : opcode i < 8 := by cases i <;> simp [opcode]
  have hp : 2 ^ c.wordWidth = 8 * 2 ^ (4 * c.n) := by
    rw [Config.wordWidth, Nat.pow_add]
  constructor
  · rw [encode, hp]
    omega
  · rw [encode, opField]
    omega

theorem EncodeFits.allOn : EncodeFits.Statement .allOn := EncodeFits.of_arg fun _ _ => Nat.two_pow_pos _

theorem EncodeFits.allOff : EncodeFits.Statement .allOff := EncodeFits.of_arg fun _ _ => Nat.two_pow_pos _

theorem EncodeFits.on (mask : List Bool) : EncodeFits.Statement (.on mask) := EncodeFits.of_arg fun c hw => by
  have hlen : mask.length = c.n := by simpa [Instr.wf] using hw
  exact Nat.lt_of_lt_of_le (maskArg_lt mask) (Nat.pow_le_pow_right (by decide) (by omega))

theorem EncodeFits.dPoints (mask : List Bool) : EncodeFits.Statement (.dPoints mask) := EncodeFits.of_arg fun c hw => by
  have hlen : mask.length = c.n := by simpa [Instr.wf] using hw
  exact Nat.lt_of_lt_of_le (maskArg_lt mask) (Nat.pow_le_pow_right (by decide) (by omega))

theorem EncodeFits.values (bytes : List Byte) : EncodeFits.Statement (.values bytes) := EncodeFits.of_arg fun c hw => by
  have hlen : bytes.length = c.dlen := by simpa [Instr.wf] using hw
  have hn := c.two_mul_dlen
  exact Nat.lt_of_lt_of_le (bytesArg_lt bytes) (Nat.pow_le_pow_right (by decide) (by omega))

theorem EncodeFits.showFrame : EncodeFits.Statement .showFrame := EncodeFits.of_arg fun _ _ => Nat.two_pow_pos _

end Sys2Proof.Laws
end

