-- ==== Sys2Proof/Laws/Step.lean ====
section
/-! SUPPORT. What one step can do, said once: the turn is used up, and one of the moves below happens to the state
that is left. Claims about `step` case on these and do not unfold it. -/

namespace Sys2Proof.Machine

/-- A render step inside the arrays, on a configured accelerator: it always runs, and this is all it does (R132). -/
theorem renderStep_runs {s : State} (shaped : s.Shaped) (configured : s.acc.Configured) (more : s.ri < s.cfg.dlen) :
    ∃ b x y, s.data[s.ri]? = some b ∧ digit s (2 * s.ri) (b &&& 0x0F) = some x ∧
      digit s (2 * s.ri + 1) ((b >>> 4) &&& 0x0F) = some y ∧
      renderStep s = .next { s with acc := { s.acc with accum := b },
                                    bits := (s.bits.set (2 * s.ri) x).set (2 * s.ri + 1) y, ri := s.ri + 1 } := by
  obtain ⟨hon, hpoints, hdata, hbits⟩ := shaped
  obtain ⟨hdone, hlane0, hlane1, hshared⟩ := configured
  have hn := s.cfg.two_mul_dlen
  have hd : s.ri < s.data.length := by omega
  obtain ⟨x, hx⟩ : ∃ x, digit s (2 * s.ri) (s.data[s.ri] &&& 0x0F) = some x :=
    let ⟨_, _, h⟩ := digit_some (by omega) (by omega) (and_0F_lt s.data[s.ri])
    ⟨_, h⟩
  obtain ⟨y, hy⟩ : ∃ y, digit s (2 * s.ri + 1) ((s.data[s.ri] >>> 4) &&& 0x0F) = some y :=
    let ⟨_, _, h⟩ := digit_some (by omega) (by omega) (and_0F_lt (s.data[s.ri] >>> 4))
    ⟨_, h⟩
  have h0 : 2 * s.ri < s.bits.length := by omega
  have h1 : 2 * s.ri + 1 < s.bits.length := by omega
  refine ⟨_, x, y, List.getElem?_eq_getElem hd, hx, hy, ?_⟩
  unfold renderStep lookup
  simp only [List.getElem?_eq_getElem hd, hdone, hshared, if_true, Accel.result0, Accel.result1, Accel.load,
    laneResult_low, laneResult_high, hlane0, hlane1]
  unfold writeDigits
  simp only [digit_acc, hx, hy]
  simp [memWrite, h0, h1]

/-- All a turn of CTRL can do (R147). -/
inductive CtrlMove (flushErr : Bool) (s : State) : State → Prop where
  | noWord (ready : s.phase = .idle) (none : s.pending = []) : CtrlMove flushErr s s
  | command (ready : s.phase = .idle) (w : Nat) (rest : List Nat) (i : Instr) (offered : s.pending = w :: rest)
      (decoded : decode s.cfg w = .command i) (t : State) (done : ExecMove { s with pending := rest } t)
      (runs : exec i { s with pending := rest } = .next t) : CtrlMove flushErr s t
  | illegal (ready : s.phase = .idle) (w : Nat) (rest : List Nat) (op : Nat) (offered : s.pending = w :: rest)
      (decoded : decode s.cfg w = .illegal op) :
      CtrlMove flushErr s (raise .illegalCmd { s with pending := rest })
  | rendered (rendering : s.phase = .render) (more : s.ri < s.cfg.dlen) (b x y : Byte)
      (configured : s.acc.cfgDone = true) (shared : s.acc.sharedInput = true) (read : s.data[s.ri]? = some b)
      (low : digit s (2 * s.ri) (laneResult b s.acc.lane0) = some x)
      (high : digit s (2 * s.ri + 1) (laneResult b s.acc.lane1) = some y) (fits : 2 * s.ri + 1 < s.bits.length) :
      CtrlMove flushErr s
        { s with acc := { s.acc with accum := b },
                 bits := (s.bits.set (2 * s.ri) x).set (2 * s.ri + 1) y, ri := s.ri + 1 }
  | unconfigured (rendering : s.phase = .render) (more : s.ri < s.cfg.dlen) (bad : s.acc.cfgDone = false) :
      CtrlMove flushErr s (raise .accelUnconfigured s)
  | started (rendering : s.phase = .render) (complete : s.ri = s.cfg.dlen) :
      CtrlMove flushErr s (xferStart (latchLow s))
  | pastTheEnd (rendering : s.phase = .render) (past : s.cfg.dlen < s.ri) : CtrlMove flushErr s s
  | chanAwaited (sending : s.phase = .xmit) (sub : s.xsub = .dmaWait) (running : s.chan.done = false) :
      CtrlMove flushErr s s
  | chanSeen (sending : s.phase = .xmit) (sub : s.xsub = .dmaWait) (finished : s.chan.done = true) :
      CtrlMove flushErr s (waitChan s)
  | flushFailed (sending : s.phase = .xmit) (sub : s.xsub = .flushWait) (err : flushErr = true) :
      CtrlMove flushErr s (raise .flushFail s)
  | flushed (sending : s.phase = .xmit) (sub : s.xsub = .flushWait) (ok : flushErr = false) (empty : s.portQ = []) :
      CtrlMove flushErr s (latchHighReturn s)
  | flushAwaited (sending : s.phase = .xmit) (sub : s.xsub = .flushWait) (ok : flushErr = false)
      (queued : s.portQ ≠ []) : CtrlMove flushErr s s
  | stopped (faulted : s.phase = .fault) : CtrlMove flushErr s s

/-- The ten invariants, the shapes, the channel's progress and the counter at rest, spelled out field by field. -/
theorem inv_iff (s : State) : s.Inv ↔
    (s.on.length = s.cfg.n ∧ s.points.length = s.cfg.n ∧ s.data.length = s.cfg.dlen ∧ s.bits.length = s.cfg.n) ∧
    ((∀ p ∈ s.points, p = 0x00 ∨ p = 0x80) ∧
      (s.phase = .idle → s.owner = .ctrlSlots ∧ s.latch = true ∧ s.chan.active = false ∧ s.chan.done = false ∧
        s.chan.idx = 0 ∧ s.portQ = [] ∧ s.ri = 0 ∧ s.cause = .none) ∧
      (s.phase = .render → s.owner = .showOp ∧ s.latch = true ∧ s.chan.active = false ∧ s.portQ = [] ∧
        s.ri ≤ s.cfg.dlen) ∧
      (s.phase = .xmit ∧ s.xsub = .dmaWait → s.owner = .xfer ∧ s.latch = false ∧ s.chan.active = true) ∧
      (s.phase = .xmit ∧ s.xsub = .flushWait → s.owner = .showOp ∧ s.latch = false ∧ s.chan.active = false ∧
        s.chan.idx = 0 ∧ s.chan.done = false) ∧
      ((s.chan.done = true → s.chan.idx = s.cfg.n) ∧
        (s.chan.active = false → s.chan.idx = 0 ∧ s.chan.done = false)) ∧
      (s.acc.cfgDone = true ∧ s.acc.lane0 = { shift := 0, mask := 0x0F } ∧
        s.acc.lane1 = { shift := 4, mask := 0x0F } ∧ s.acc.sharedInput = true) ∧
      s.portQ.length ≤ s.cfg.portQueueDepth ∧
      (s.phase = .fault ↔ s.cause ≠ .none) ∧
      s.wire.count .latchFall = s.wire.count .latchRise + (if s.latch then 0 else 1)) ∧
    ((s.chan.active = true → s.phase = .xmit ∧ s.xsub = .dmaWait) ∧
      (s.chan.active = true → s.chan.idx ≤ s.cfg.n ∧ (s.chan.done = true ↔ s.chan.idx = s.cfg.n))) ∧
    (s.phase = .xmit → s.ri = 0) := Iff.rfl

theorem ctrlTurn_move {flushErr : Bool} {s t : State} (h : ctrlTurn flushErr s = .next t) :
    CtrlMove flushErr s t := by
  unfold ctrlTurn at h
  split at h
  · rename_i hp
    split at h
    · cases h
      exact .noWord hp ‹_›
    · rename_i w rest ho
      unfold acceptWord at h
      split at h
      · exact .command hp w rest _ ho ‹_› t (exec_move h) h
      · cases h
        exact .illegal hp w rest _ ho ‹_›
  · rename_i hp
    split at h
    · rename_i hm
      obtain ⟨hb, rfl⟩ | ⟨b, x, y, hc, hs, hr, hx, hy, hf, rfl⟩ := renderStep_next h
      · exact .unconfigured hp hm hb
      · exact .rendered hp hm b x y hc hs hr hx hy hf
    · split at h <;> cases h
      · exact .started hp ‹_›
      · exact .pastTheEnd hp (by omega)
  · rename_i hp
    split at h
    · rename_i hx
      split at h <;> cases h
      · exact .chanSeen hp hx ‹_›
      · exact .chanAwaited hp hx (Bool.eq_false_of_not_eq_true ‹_›)
    · rename_i hx
      cases h
      unfold waitFlush
      split
      · exact .flushFailed hp hx ‹_›
      · rename_i he
        split
        · rename_i hf
          exact .flushed hp hx (Bool.eq_false_of_not_eq_true he) (by simpa [State.portFlushed] using hf)
        · rename_i hf
          exact .flushAwaited hp hx (Bool.eq_false_of_not_eq_true he) (by simpa [State.portFlushed] using hf)
  · cases h
    exact .stopped ‹_›

/-- The invariant does not speak of the inputs: using up a turn keeps it. -/
theorem spendTurn_inv (s : State) : s.spendTurn.Inv ↔ s.Inv := by
  simp only [inv_iff, spendTurn_cfg, spendTurn_on, spendTurn_points, spendTurn_data, spendTurn_bits, spendTurn_phase,
    spendTurn_xsub, spendTurn_ri, spendTurn_cause, spendTurn_latch, spendTurn_acc, spendTurn_owner, spendTurn_chan,
    spendTurn_portQ, spendTurn_wire]

/-- All a step can do: the turn `nextTurn` is used up and its agent moves (R20). -/
theorem step_next {s t : State} (h : step s = .next t) :
    (∃ w, s.nextTurn = .host w ∧ t = { s.spendTurn with pending := s.pending ++ [w] }) ∨
    (∃ flushErr, s.nextTurn = .ctrl flushErr ∧ CtrlMove flushErr s.spendTurn t) ∨
    (s.nextTurn = .chan ∧ chanMove s.spendTurn = .next t) ∨
    (s.nextTurn = .port ∧ t = portShift s.spendTurn) := by
  unfold step at h
  cases ht : s.nextTurn with
  | host w =>
    rw [ht] at h
    cases h
    exact .inl ⟨w, rfl, by simp⟩
  | ctrl e =>
    rw [ht] at h
    exact .inr (.inl ⟨e, rfl, ctrlTurn_move h⟩)
  | chan =>
    rw [ht] at h
    exact .inr (.inr (.inl ⟨rfl, h⟩))
  | port =>
    rw [ht] at h
    cases h
    exact .inr (.inr (.inr ⟨rfl, rfl⟩))

end Sys2Proof.Machine
end

