-- ==== Sys2Proof/Laws/Runs.lean ====
section
/-! SUPPORT. Runs: no turn reads the list of turns, so a listed turn is a step; one more step of a run; when each
agent is enabled, that an enabled step stays enabled until it is taken, and that a weakly fair run takes it
(43_transfer.md R147, R173). -/

namespace Sys2Proof.Machine

/-- An outcome, with another list of turns in its next state. -/
def withSched (turns : List Turn) : Host.Outcome State Fault Refusal → Host.Outcome State Fault Refusal
  | .next s => .next { s with sched := turns }
  | .fault r => .fault r
  | .refused r => .refused r

theorem exec_withSched (i : Instr) (s : State) (turns : List Turn) :
    exec i { s with sched := turns } = withSched turns (exec i s) := by
  cases i <;> simp only [exec, execAllOn, execAllOff, execOn, execDPoints, execValues, execShow, accept, acceptSized] <;>
    (repeat' split) <;> rfl

theorem renderStep_withSched (s : State) (turns : List Turn) :
    renderStep { s with sched := turns } = withSched turns (renderStep s) := by
  have hd : ∀ acc p idx, digit { s with acc := acc, sched := turns } p idx = digit { s with acc := acc } p idx :=
    fun _ _ _ => rfl
  unfold renderStep
  dsimp only
  split
  · rfl
  · split
    · rfl
    · rfl
    · rename_i acc high low _
      simp only [writeDigits, hd]
      cases digit { s with acc := acc } (2 * s.ri) low with
      | none => rfl
      | some x =>
        cases digit { s with acc := acc } (2 * s.ri + 1) high with
        | none => rfl
        | some y =>
          by_cases h0 : 2 * s.ri < s.bits.length
          · by_cases h1 : 2 * s.ri + 1 < s.bits.length <;> simp [memWrite, h0, h1, withSched]
          · simp [memWrite, h0, withSched]

theorem ctrlTurn_withSched (flushErr : Bool) (s : State) (turns : List Turn) :
    ctrlTurn flushErr { s with sched := turns } = withSched turns (ctrlTurn flushErr s) := by
  unfold ctrlTurn
  dsimp only
  split
  · split
    · rfl
    · rename_i w rest _
      simp only [acceptWord]
      split
      · exact exec_withSched _ { s with pending := rest } turns
      · rfl
  · split
    · exact renderStep_withSched s turns
    · split <;> rfl
  · split
    · split <;> rfl
    · simp only [waitFlush, show State.portFlushed { s with sched := turns } = s.portFlushed from rfl]
      split
      · rfl
      · split <;> rfl
  · rfl

theorem chanMove_withSched (s : State) (turns : List Turn) :
    chanMove { s with sched := turns } = withSched turns (chanMove s) := by
  unfold chanMove
  rw [show chanMoveEnabled { s with sched := turns } = chanMoveEnabled s from rfl]
  split
  · dsimp only [memRead]
    split <;> rfl
  · rfl

/-- No turn reads or writes the list of turns: using up the next one is the step's own part. -/
theorem runTurn_withSched (t : Turn) (s : State) (turns : List Turn) :
    runTurn t { s with sched := turns } = withSched turns (runTurn t s) := by
  cases t with
  | host w => rfl
  | ctrl flushErr => exact ctrlTurn_withSched flushErr s turns
  | chan => exact chanMove_withSched s turns
  | port =>
    simp only [runTurn, portShift]
    split <;> rfl

/-- A step with a listed turn is that turn, and leaves the turns after it listed. -/
theorem step_listed (t : Turn) (turns : List Turn) (s : State) :
    step { s with sched := t :: turns } = withSched turns (runTurn t s) :=
  runTurn_withSched t s turns

/-- One more step of a run, at its start. -/
theorem runFor_succ (k : Nat) (s : State) :
    runFor (k + 1) s =
      match step s with
      | .next t => runFor k t
      | .fault r => .fault r
      | .refused r => .refused r := by
  cases e : step s <;> simp only [runFor, Host.Core.run, show Sys2Proof.core.step s = _ from e] <;> rfl

/-- In a weakly fair run, a step that stays enabled until it is taken is taken (R173). -/
theorem weaklyFair_taken {turns : Nat → Turn} {states : Nat → State} (fair : WeaklyFair turns states)
    {agent : FairAgent} {k : Nat} (ready : (states k).enabled agent = true)
    (stays : ∀ j, k ≤ j → (states j).enabled agent = true → fairAgentOf (turns j) ≠ some agent →
      (states (j + 1)).enabled agent = true) :
    ∃ j, k ≤ j ∧ (states j).enabled agent = true ∧ fairAgentOf (turns j) = some agent := by
  by_contra none
  push Not at none
  have always : ∀ d, (states (k + d)).enabled agent = true := by
    intro d
    induction d with
    | zero => exact ready
    | succ d ih => exact stays (k + d) (Nat.le_add_right k d) ih (none (k + d) (Nat.le_add_right k d) ih)
  obtain ⟨j, hj, off | turn⟩ := fair agent k <;> obtain ⟨d, rfl⟩ := Nat.exists_eq_add_of_le hj
  · rw [always d] at off
    cases off
  · exact none _ hj (always d) turn

/-- When CTRL has an enabled step (R147). -/
theorem enabled_ctrl (s : State) : s.enabled .ctrl = true ↔
    (s.phase = .idle ∧ s.pending ≠ []) ∨ (s.phase = .render ∧ s.ri ≤ s.cfg.dlen) ∨
      (s.phase = .xmit ∧ s.xsub = .dmaWait ∧ s.chan.done = true) ∨
      (s.phase = .xmit ∧ s.xsub = .flushWait ∧ s.portQ = []) := by
  unfold State.enabled
  cases hp : s.phase <;> cases hx : s.xsub <;> simp [State.cmdValid, State.portFlushed]

/-- When CHAN has an enabled step (R164). -/
theorem enabled_chan (s : State) : s.enabled .chan = true ↔
    s.chan.active = true ∧ s.chan.done = false ∧ s.chan.idx < s.cfg.n ∧ s.portQ.length < s.cfg.portQueueDepth := by
  simp [State.enabled, chanMoveEnabled, and_assoc]

/-- When PORT has an enabled step (R167). -/
theorem enabled_port (s : State) : s.enabled .port = true ↔ s.portQ ≠ [] := by
  simp [State.enabled, State.portFlushed]

/-- An enabled step stays enabled while other agents move (R155, R159, R164, R167). -/
theorem enabled_stays {agent : FairAgent} {t : Turn} {s u : State} (inv : s.Inv) (moves : runTurn t s = .next u)
    (ready : s.enabled agent = true) (other : fairAgentOf t ≠ some agent) : u.enabled agent = true := by
  obtain ⟨-, ⟨-, idle, render, -, flush, -, -, -, -, -⟩, progress, -⟩ := (inv_iff s).1 inv
  cases t with
  | host w =>
    cases moves
    cases agent <;> simp_all [enabled_ctrl, enabled_chan, enabled_port]
    exact ready.imp_left And.left
  | ctrl flushErr =>
    cases ctrlTurn_move moves with
    | command _ w rest i _ _ t done _ =>
      cases done <;> cases agent <;> simp_all [enabled_chan, enabled_port, fairAgentOf]
    | _ => cases agent <;> simp_all [enabled_chan, enabled_port, fairAgentOf]
  | chan =>
    obtain ⟨-, rfl⟩ | ⟨b, active, running, -, -, -, rfl⟩ := chanMove_next moves
    · exact ready
    · cases agent <;> simp_all [enabled_ctrl, enabled_port, fairAgentOf]
  | port =>
    cases moves
    obtain ⟨-, same⟩ | ⟨b, rest, queued, same⟩ := portShift_cases s <;> rw [same]
    · exact ready
    · cases agent with
      | ctrl => 
        obtain h | h | h | ⟨-, -, h⟩ := (enabled_ctrl s).1 ready
        · exact (enabled_ctrl _).2 (.inl h)
        · exact (enabled_ctrl _).2 (.inr (.inl h))
        · exact (enabled_ctrl _).2 (.inr (.inr (.inl h)))
        · rw [queued] at h
          cases h
      | chan =>
        obtain ⟨h1, h2, h3, h4⟩ := (enabled_chan s).1 ready
        rw [queued, List.length_cons] at h4
        exact (enabled_chan _).2 ⟨h1, h2, h3, Nat.lt_of_succ_lt h4⟩
      | port => exact absurd rfl other

end Sys2Proof.Machine
end

