-- ==== Sys2Proof/Tests/Slice0.lean ====
section
/-! SUPPORT. Tests. Expected values come from 95_test_vectors.md (named V-…, P…) or from the rule named. The theorems
witness_… show, for each statement with hypotheses, a state and operands that meet them. -/

namespace Sys2Proof.Tests

open Sys2Proof.Machine

/-- The chain of most vectors: N = 4, queue depth 1, the default table. -/
def cfg4 : Config :=
  { n := 4, portQueueDepth := 1, segTable := segTableAH, litLevel := true, shiftMsbFirst := true, legal := by decide }

/-- The state of an outcome, to look at its fields. -/
def nextOf (o : Host.Outcome State Fault Refusal) : Option State :=
  match o with
  | .next s => some s
  | _ => none

/-- V-R3 row one before its render pass, idle. -/
def idle4 : State :=
  { State.resetOf cfg4 with on := [true, false, true, true], points := [0x00, 0x80, 0x00, 0x80], data := [0xA5, 0x3C] }

/-- The same at the start of its render pass. -/
def render4 : State := { idle4 with phase := .render, owner := .showOp, sched := [.ctrl false, .ctrl false] }

/-- The same with the pass complete. -/
def complete4 : State :=
  { render4 with bits := [0x6D, 0x80, 0x39, 0xCF], ri := 2, acc := { idle4.acc with accum := 0x3C } }

/-- The same in its transfer, the first byte queued: V-X4. -/
def dma4 : State :=
  { complete4 with
    phase := .xmit, owner := .xfer, latch := false, ri := 0, chan := { active := true, idx := 1, done := false },
    portQ := [0x6D], wire := [.latchFall] }

/-- The same with the last byte about to be moved. -/
def dmaLast4 : State :=
  { dma4 with chan := { active := true, idx := 3, done := false }, portQ := [],
              wire := [.latchFall, .byte 0x6D, .byte 0x80, .byte 0x39] }

/-- The same with the last byte moved. -/
def dmaDone4 : State :=
  { dmaLast4 with chan := { active := true, idx := 4, done := true }, portQ := [0xCF] }

/-- The same in the second wait, a byte still queued: V-X6. -/
def flush4 : State :=
  { dmaDone4 with owner := .showOp, chan := { active := false, idx := 0, done := false }, xsub := .flushWait }

/-- The same with the queue empty. -/
def flushed4 : State :=
  { flush4 with portQ := [], wire := [.latchFall, .byte 0x6D, .byte 0x80, .byte 0x39, .byte 0xCF] }

/-- The same after a flush failure with a byte queued: V-F2. -/
def fault4 : State := { flush4 with phase := .fault, cause := .flushFail }

/-! ## WellFormed: each check refuses an ill-formed term -/

theorem test_wf_on_short : (Instr.on [true, false, true]).wf cfg4 = false := by decide
theorem test_wf_dpoints_long : (Instr.dPoints [true, false, true, true, false]).wf cfg4 = false := by decide
theorem test_wf_values_short : (Instr.values [0xA5]).wf cfg4 = false := by decide
theorem test_wf_values_ok : (Instr.values [0xA5, 0x3C]).wf cfg4 = true := by decide
theorem test_config_odd_n : Config.isLegal 3 1 segTableAH true = false := by decide
theorem test_config_zero_n : Config.isLegal 0 1 segTableAH true = false := by decide
theorem test_config_no_queue : Config.isLegal 4 0 segTableAH true = false := by decide
/-- R101 item 4 alone: the glyph of 5 is read from bits 6 to 0. -/
theorem test_config_bit7 : Config.isLegal 4 1 (segTableAL7.set 5 0x92) false = false := by decide
theorem test_config_short_table : Config.isLegal 4 1 (segTableAH.drop 1) true = false := by decide
/-- R101 item 2: a table of blanks shows no glyph; nor does the default table with two entries exchanged. -/
theorem test_config_blank_table : Config.isLegal 4 1 (List.replicate 16 0x00) true = false := by decide
theorem test_config_exchanged : Config.isLegal 4 1 ((segTableAH.set 3 0x5B).set 2 0x4F) true = false := by decide
/-- R104: the other candidate is legal under `LIT_LEVEL = 0`, and not under 1. -/
theorem test_config_al7 : Config.isLegal 4 1 segTableAL7 false = true ∧ Config.isLegal 4 1 segTableAL7 true = false := by
  decide
/-- R102: 6 without A, 9 without D, 7 with F and c are variants of their glyphs. -/
theorem test_config_variants :
    Config.isLegal 4 1 ((((segTableAH.set 6 0x7C).set 9 0x67).set 7 0x27).set 12 0x58) true = true := by decide

/-! ## Decode: a word for every constructor (V-E1, V-E2, V-E4) -/

theorem test_decode_allOn : decode cfg4 0x7FFF8 = .command .allOn := by decide
theorem test_decode_allOff : decode cfg4 0x00001 = .command .allOff := by decide
theorem test_decode_on : decode cfg4 0x0006A = .command (.on [true, false, true, true]) := by decide
theorem test_decode_on_ignored : decode cfg4 0x7FFEA = .command (.on [true, false, true, true]) := by decide
theorem test_decode_dPoints : decode cfg4 0x00053 = .command (.dPoints [false, true, false, true]) := by decide
theorem test_decode_values : decode cfg4 0x1E52C = .command (.values [0xA5, 0x3C]) := by decide
theorem test_decode_show : decode cfg4 0x55E6D = .command .showFrame := by decide
theorem test_decode_illegal6 : decode cfg4 0x00006 = .illegal 6 := by decide
theorem test_decode_illegal7 : decode cfg4 0x091A7 = .illegal 7 := by decide
theorem test_decode_n2_on : decode Config.reference 0x7F2 = .command (.on [false, true]) := by decide
theorem test_decode_n2_values : decode Config.reference 0x7FC = .command (.values [0xFF]) := by decide
theorem test_encode_values : encode (.values [0x10, 0x32]) = 0x19084 := by decide
theorem test_encode_dPoints : encode (.dPoints [true, false, false, false]) = 0x0000B := by decide
theorem test_table_word : decodeTableWord 8 0x0C = some (.values [0x01]) := by decide
theorem test_table_word_reserved : decodeTableWord 8 0x06 = none := by decide

/-! ## Text (R90) -/

theorem test_text_values : readLine cfg4 (writeLine (.values [0xA5, 0x3C])) = some (.values [0xA5, 0x3C]) := by decide
/-- `On([1,0,1,1]) ; c`: the source's spelling and a comment. -/
theorem test_text_alias :
    readLine cfg4 ['O', 'n', '(', '[', '1', ',', '0', ',', '1', ',', '1', ']', ')', ' ', ';', ' ', 'c'] =
      some (.on [true, false, true, true]) := by decide

/-! ## The commands (V-M1 to V-M10) -/

theorem test_allOn : (nextOf (exec .allOn { idle4 with on := [false, true, false, false] })).map (·.on) =
    some [true, true, true, true] := by decide
theorem test_allOn_keeps_points : (nextOf (exec .allOn idle4)).map (·.points) = some [0x00, 0x80, 0x00, 0x80] := by
  decide
theorem test_allOff : (nextOf (exec .allOff idle4)).map (fun s => (s.on, s.points)) =
    some ([false, false, false, false], [0x00, 0x80, 0x00, 0x80]) := by decide
theorem test_on_replaces : (nextOf (exec (.on [false, true, true, false])
    { idle4 with on := [true, true, false, false] })).map (·.on) = some [false, true, true, false] := by decide
theorem test_dPoints_replaces : (nextOf (exec (.dPoints [true, false, false, false])
    { idle4 with points := [0x80, 0x80, 0x00, 0x00] })).map (·.points) = some [0x80, 0x00, 0x00, 0x00] := by decide
theorem test_values_replaces : (nextOf (exec (.values [0x10, 0x32]) idle4)).map (·.data) = some [0x10, 0x32] := by
  decide
theorem test_show_takes : (nextOf (exec .showFrame idle4)).map (fun s => (s.phase, s.owner, s.latch)) =
    some (.render, .showOp, true) := by decide
/-- V-E5: a command offered in `XMIT` is held. -/
theorem test_allOff_held : (nextOf (exec .allOff dma4)).map (·.on) = some [true, false, true, true] := by decide

/-! ## The micro-operations -/

/-- V-L1. -/
theorem test_lookup : lookup State.reset.acc 0xA5 = .indices { State.reset.acc with accum := 0xA5 } 0x0A 0x05 := by
  decide
/-- V-L4. -/
theorem test_encodePair : encodePair cfg4 0x3C = (0x4F, 0x39) := by decide
/-- V-R3 row one. -/
theorem test_rendered : idle4.rendered = [0x6D, 0x80, 0x39, 0xCF] := by decide
/-- V-R5, the first step. -/
theorem test_renderStep : (nextOf (step render4)).map (fun s => (s.bits, s.ri, s.acc.accum)) =
    some ([0x6D, 0x80, 0x00, 0x00], 1, 0xA5) := by decide
/-- V-X4: the channel is held while the queue is full. -/
theorem test_chan_held : (nextOf (step { dma4 with sched := [.chan] })).map (fun s => (s.portQ, s.chan.idx)) =
    some ([0x6D], 1) := by decide
/-- V-X5. -/
theorem test_dma_wait_held : (nextOf (step { dmaLast4 with sched := [.ctrl true] })).map (·.xsub) = some .dmaWait := by
  decide
/-- V-X6: the latch does not rise with a byte queued. -/
theorem test_flush_held : (nextOf (step { flush4 with sched := [.ctrl false] })).map (·.latch) = some false := by decide
/-- V-F1: the fault wins although the queue is empty. -/
theorem test_flush_fail : (nextOf (step { flushed4 with sched := [.ctrl true] })).map
    (fun s => (s.phase, s.cause.code, s.latch, s.owner)) = some (.fault, 1, false, .showOp) := by decide
/-- V-F2: PORT goes on after the fault. -/
theorem test_port_after_fault : (nextOf (step { fault4 with sched := [.port] })).map (fun s => (s.portQ, s.wire)) =
    some ([], [.latchFall, .byte 0x6D, .byte 0x80, .byte 0x39, .byte 0xCF]) := by decide
/-- V-F3. -/
theorem test_illegal : (nextOf (step { idle4 with pending := [0x091A7], sched := [.ctrl false] })).map
    (fun s => (s.phase, s.cause.code, s.on, s.latch)) = some (.fault, 2, [true, false, true, true], true) := by decide
/-- V-I1. -/
theorem test_reset_outputs : State.reset.outputs =
    { cmdReady := true, busy := false, fault := false, cause := 0, latch := true } := by decide
/-- The first step after reset runs the word that withFetchWord places. -/
theorem test_first_word : (nextOf (step (State.reset.withFetchWord 8 0x0B))).map (·.points) = some [0x80, 0x00] := by
  decide

/-! ## Witnesses: the hypotheses of each statement can be met -/

theorem idle4_full : idle4.FullInv := by
  refine ⟨⟨?_, ⟨?_, ?_, ?_, ?_, ?_, ?_, ?_, ?_, ?_, ?_⟩, ?_, ?_⟩, ?_, ?_⟩ <;> decide
theorem render4_full : render4.FullInv := by
  refine ⟨⟨?_, ⟨?_, ?_, ?_, ?_, ?_, ?_, ?_, ?_, ?_, ?_⟩, ?_, ?_⟩, ?_, ?_⟩ <;> decide
theorem complete4_full : complete4.FullInv := by
  refine ⟨⟨?_, ⟨?_, ?_, ?_, ?_, ?_, ?_, ?_, ?_, ?_, ?_⟩, ?_, ?_⟩, ?_, ?_⟩ <;> decide
theorem dma4_full : dma4.FullInv := by
  refine ⟨⟨?_, ⟨?_, ?_, ?_, ?_, ?_, ?_, ?_, ?_, ?_, ?_⟩, ?_, ?_⟩, ?_, ?_⟩ <;> decide
theorem dmaLast4_full : dmaLast4.FullInv := by
  refine ⟨⟨?_, ⟨?_, ?_, ?_, ?_, ?_, ?_, ?_, ?_, ?_, ?_⟩, ?_, ?_⟩, ?_, ?_⟩ <;> decide
theorem flush4_full : flush4.FullInv := by
  refine ⟨⟨?_, ⟨?_, ?_, ?_, ?_, ?_, ?_, ?_, ?_, ?_, ?_⟩, ?_, ?_⟩, ?_, ?_⟩ <;> decide
theorem flushed4_full : flushed4.FullInv := by
  refine ⟨⟨?_, ⟨?_, ?_, ?_, ?_, ?_, ?_, ?_, ?_, ?_, ?_⟩, ?_, ?_⟩, ?_, ?_⟩ <;> decide
theorem fault4_full : fault4.FullInv := by
  refine ⟨⟨?_, ⟨?_, ?_, ?_, ?_, ?_, ?_, ?_, ?_, ?_, ?_⟩, ?_, ?_⟩, ?_, ?_⟩ <;> decide

theorem witness_DecodingAnEncodedCommandGivesItBack :
    ∃ (c : Config) (i : Instr), i.wf c = true ∧ i = .values [0xA5, 0x3C] := ⟨cfg4, _, by decide, rfl⟩
theorem witness_IgnoredBitsDoNotMatter :
    (∃ i, decode cfg4 0x7FFEA = .command i) ∧ readBits cfg4 0x0006A = readBits cfg4 0x7FFEA := ⟨⟨_, rfl⟩, by decide⟩
theorem witness_WorkedEncodingsOfTheSpec : Config.reference.n = 2 ∧ cfg4.n = 4 := by decide
theorem witness_ReadingAWrittenCommandGivesItBack : ∃ (c : Config) (i : Instr), i.wf c = true ∧ i = .on [false, true] :=
  ⟨Config.reference, _, by decide, rfl⟩
theorem witness_StepRunsTheDecodedCommand : ∃ (s : State) (e : Bool) (w : Nat) (rest : List Nat) (i : Instr),
    s.phase = .idle ∧ s.nextTurn = .ctrl e ∧ s.pending = w :: rest ∧ decode s.cfg w = .command i :=
  ⟨{ idle4 with pending := [0x1E52C, 0x5], sched := [.ctrl true] }, true, 0x1E52C, [0x5], _, rfl, rfl, rfl, rfl⟩
theorem witness_ReservedOpcodeRaisesIllegalCmd : ∀ w, w = 0x00006 ∨ w = 0x091A7 →
    ∃ (s : State) (e : Bool) (rest : List Nat), s.phase = .idle ∧ s.nextTurn = .ctrl e ∧ s.pending = w :: rest ∧
      (w % 8 = 6 ∨ w % 8 = 7) := by
  rintro w (rfl | rfl)
  · exact ⟨{ idle4 with pending := [0x00006], sched := [.ctrl false] }, false, [], rfl, rfl, rfl, by decide⟩
  · exact ⟨{ idle4 with pending := [0x091A7], sched := [.ctrl false] }, false, [], rfl, rfl, rfl, by decide⟩
theorem witness_HostTurnOnlyOffersAWord : State.nextTurn { dma4 with sched := [.host 5] } = .host 5 := rfl
theorem witness_AllOnSetsEveryDigit : 0x7FFF8 % 8 = 0 ∧ idle4.phase = .idle := by decide
theorem witness_AllOffClearsEveryDigit : 0x00001 % 8 = 1 ∧ idle4.phase = .idle := by decide
theorem witness_OnReplacesTheDigitMask :
    0x0006A % 8 = 2 ∧ 3 < cfg4.n ∧ idle4.phase = .idle ∧ [false, true, true, false].length = idle4.cfg.n := by decide
theorem witness_DPointsReplacesTheDecimalPoints :
    0x00053 % 8 = 3 ∧ 3 < cfg4.n ∧ idle4.phase = .idle ∧ [true, false, false, true].length = idle4.cfg.n := by decide
theorem witness_ValuesReplacesTheData : 0x1E52C % 8 = 4 ∧ 1 < cfg4.dlen ∧ idle4.phase = .idle ∧
    ([0x10, 0x32] : List Byte).length = idle4.cfg.dlen ∧ ([0x10, 0x32] : List Byte)[1]? = some 0x32 := by decide
theorem witness_OperandOfWrongLengthIsRefused : idle4.phase = .idle ∧ (Instr.on [true]).wf idle4.cfg = false := by
  decide
theorem witness_ShowTakesTheResources : 0x55E6D % 8 = 5 ∧ idle4.phase = .idle := by decide
theorem witness_CommandsAreHeldWhileBusy : ∃ s t : State, s.phase ≠ .idle ∧ step s = .next t :=
  ⟨{ dma4 with sched := [.port] }, _, by decide, rfl⟩
theorem witness_MutationsReplaceAndCommute : idle4.phase = .idle ∧
    (Instr.on [true, true, true, true]).wf idle4.cfg = true ∧ (Instr.values [1, 2]).wf idle4.cfg = true ∧
    targetOf (.on [true, true, true, true]) ≠ targetOf (.values [1, 2]) ∧
    targetOf .allOff = targetOf (.on [true, true, true, true]) := by decide
theorem witness_LookupSplitsEveryByte : State.reset.acc.Configured ∧
    lookup State.reset.acc 0xA5 = .indices { State.reset.acc with accum := 0xA5 } 0x0A 0x05 := by decide
theorem witness_DigitByteIsPointOrGlyph :
    (idle4.on[3]? = some true ∧ idle4.points[3]? = some 0x80 ∧ idle4.cfg.segTable[(0x0F : Byte).toNat]? = some 0x71) ∧
    (idle4.on[1]? = some false ∧ idle4.points[0]? = some 0x00 ∧ idle4.cfg.segTable[(0x00 : Byte).toNat]? = some 0x3F) := by
  decide
theorem witness_RenderPassComputesTheClosedForm : render4.Shaped ∧ render4.acc.Configured ∧ render4.phase = .render ∧
    render4.ri = 0 ∧ render4.sched = List.replicate render4.cfg.dlen (.ctrl false) ++ [] := by decide
theorem witness_DigitsDoNotInfluenceEachOther : 3 < cfg4.n ∧
    [true, true, true, true][3]? = [false, false, false, true][3]? ∧
    ([0, 0, 0, 0x80] : List Byte)[3]? = ([0x80, 0, 0, 0x80] : List Byte)[3]? ∧
    nibbleOf [0x12, 0x34] 3 = nibbleOf [0x00, 0x3F] 3 := by decide
theorem witness_UnconfiguredLookupFaults : ∃ (s : State) (e : Bool), s.phase = .render ∧ s.nextTurn = .ctrl e ∧
    s.ri < s.data.length ∧ s.ri < s.cfg.dlen ∧ s.acc.cfgDone = false :=
  ⟨{ render4 with acc := { render4.acc with cfgDone := false } }, false, rfl, rfl, by decide, by decide, rfl⟩
theorem witness_CompleteRenderStartsTheTransfer :
    complete4.phase = .render ∧ complete4.nextTurn = .ctrl false ∧ complete4.ri = complete4.cfg.dlen := by decide
theorem witness_NothingIsSentBeforeTheRenderIsComplete : ∃ s t : State, step s = .next t ∧
    (s.latch = true ∧ t.latch = false) ∧ (s.chan.active = false ∧ t.chan.active = true) ∧ s.FullInv :=
  ⟨complete4, _, rfl, by decide, by decide, complete4_full⟩
theorem witness_WaitChanHoldsUntilDone : ∀ d : Bool, ∃ (s : State) (e : Bool), s.phase = .xmit ∧ s.xsub = .dmaWait ∧
    s.nextTurn = .ctrl e ∧ s.chan.done = d := by
  rintro (_ | _)
  · exact ⟨{ dmaLast4 with sched := [.ctrl false] }, false, rfl, rfl, rfl, rfl⟩
  · exact ⟨{ dmaDone4 with sched := [.ctrl false] }, false, rfl, rfl, rfl, rfl⟩
theorem witness_WaitFlushReleasesOrFaults :
    (∃ s : State, s.phase = .xmit ∧ s.xsub = .flushWait ∧ s.nextTurn = .ctrl true) ∧
    (∃ s : State, s.phase = .xmit ∧ s.xsub = .flushWait ∧ s.nextTurn = .ctrl false ∧ s.portQ ≠ []) ∧
    (∃ s : State, s.phase = .xmit ∧ s.xsub = .flushWait ∧ s.nextTurn = .ctrl false ∧ s.portQ = []) :=
  ⟨⟨{ flush4 with sched := [.ctrl true] }, rfl, rfl, rfl⟩,
   ⟨{ flush4 with sched := [.ctrl false] }, rfl, rfl, rfl, by decide⟩,
   ⟨{ flushed4 with sched := [.ctrl false] }, rfl, rfl, rfl, rfl⟩⟩
theorem witness_ChanMovePushesTheNextByte :
    (∃ (s : State) (b : Byte), s.nextTurn = .chan ∧ s.chan.active = true ∧ s.chan.done = false ∧
      s.chan.idx + 1 = s.cfg.n ∧ s.portQ.length < s.cfg.portQueueDepth ∧ s.bits[s.chan.idx]? = some b) ∧
    (∃ s : State, s.nextTurn = .chan ∧ s.chan.active = false) ∧
    (∃ s : State, s.nextTurn = .chan ∧ s.chan.done = true ∧ s.cfg.n ≤ s.chan.idx) ∧
    (∃ s : State, s.nextTurn = .chan ∧ s.cfg.portQueueDepth ≤ s.portQ.length) :=
  ⟨⟨{ dmaLast4 with sched := [.chan] }, 0xCF, by decide⟩, ⟨{ idle4 with sched := [.chan] }, by decide⟩,
   ⟨{ dmaDone4 with sched := [.chan] }, by decide⟩, ⟨{ dma4 with sched := [.chan] }, by decide⟩⟩
theorem witness_PortShiftsTheHeadInEveryPhase :
    (∃ (s : State) (b : Byte) (rest : List Byte), s.nextTurn = .port ∧ s.phase = .fault ∧ s.portQ = b :: rest) ∧
    (∃ s : State, s.nextTurn = .port ∧ s.portQ = []) :=
  ⟨⟨{ fault4 with sched := [.port] }, 0xCF, [], rfl, rfl, rfl⟩, ⟨{ idle4 with sched := [.port] }, rfl, rfl⟩⟩
theorem witness_LatchRisesOnlyAfterBothWaits : ∃ s t : State, step s = .next t ∧ s.latch = false ∧ t.latch = true :=
  ⟨{ flushed4 with sched := [.ctrl false] }, _, rfl, rfl, rfl⟩
theorem witness_EveryReleasedFrameIsTheRenderedFrame :
    ∃ s t : State, s.FullInv ∧ step s = .next t ∧ s.latch = false ∧ t.latch = true :=
  ⟨{ flushed4 with sched := [.ctrl false] }, _, flushed4_full, rfl, rfl, rfl⟩
theorem witness_BytesLeaveOnlyWhileTheLatchIsLow :
    ∃ (s t : State) (b : Byte), s.FullInv ∧ step s = .next t ∧ t.wire = s.wire ++ [.byte b] ∧ s.safe :=
  ⟨{ dma4 with sched := [.port] }, _, 0x6D, dma4_full, rfl, rfl, rfl⟩
theorem witness_PhaseMovesOnlyAsListed : ∃ s t : State, step s = .next t ∧ t.phase ≠ s.phase :=
  ⟨{ idle4 with pending := [0x5], sched := [.ctrl false] }, _, rfl, by decide⟩
theorem witness_OwnershipGoesRoundTheLoan : ∃ s t : State, s.Inv ∧ step s = .next t ∧ t.owner ≠ s.owner :=
  ⟨{ flushed4 with sched := [.ctrl false] }, _, flushed4_full.1, rfl, by decide⟩
theorem witness_TheBufferIsNeverShared :
    (∃ s t : State, s.Inv ∧ step s = .next t ∧ t.bits ≠ s.bits) ∧
    (∃ s t : State, s.Inv ∧ step s = .next t ∧ s.portQ.length < t.portQ.length) ∧
    (∃ s t : State, s.Inv ∧ step s = .next t ∧ s.owner = .ctrlSlots) :=
  ⟨⟨render4, _, render4_full.1, rfl, by decide⟩,
   ⟨{ dmaLast4 with sched := [.chan] }, _, dmaLast4_full.1, rfl, by decide⟩,
   ⟨{ idle4 with pending := [0x5], sched := [.ctrl false] }, _, idle4_full.1, rfl, rfl⟩⟩
theorem witness_FaultIsFinal : ∃ (s t : State) (k : Nat), 0 < k ∧ s.phase = .fault ∧ runFor k s = .next t :=
  ⟨{ fault4 with sched := [.port] }, _, 1, by decide, rfl, rfl⟩
theorem witness_CauseIsWrittenOnceByFaultEntry : ∃ s t : State, s.Inv ∧ step s = .next t ∧ t.cause ≠ s.cause :=
  ⟨{ flush4 with sched := [.ctrl true] }, _, flush4_full.1, rfl, by decide⟩
theorem witness_ParametersAndLanesNeverChange : ∃ s t : State, step s = .next t := ⟨render4, _, rfl⟩
theorem witness_EveryStepKeepsTheInvariant : ∃ s t : State, s.Inv ∧ step s = .next t := ⟨render4, _, render4_full.1, rfl⟩
theorem witness_EveryStepKeepsTheLogAndTheBuffer : ∃ s t : State, s.FullInv ∧ step s = .next t :=
  ⟨complete4, _, complete4_full, rfl⟩
theorem witness_NoStepStops : fault4.Inv := fault4_full.1
theorem witness_ReachableStatesMeetTheTenInvariants : ∃ s t : State, Reachable cfg4 s ∧ runFor 1 s = .next t ∧
    s.phase = .fault :=
  ⟨_, _, .step (.start [0x6] [.ctrl false, .port] 0) rfl, rfl, rfl⟩
theorem witness_ControlPathIgnoresWhatIsDisplayed : ∃ s s' t t' : State, s.Inv ∧ s'.Inv ∧ SameControl s s' ∧
    step s = .next t ∧ step s' = .next t' ∧ s.data ≠ s'.data :=
  ⟨{ idle4 with sched := [.port] }, { State.resetOf cfg4 with sched := [.port] }, _, _, idle4_full.1,
   by refine ⟨?_, ⟨?_, ?_, ?_, ?_, ?_, ?_, ?_, ?_, ?_, ?_⟩, ?_, ?_⟩ <;> decide, by decide, rfl, rfl, by decide⟩

/-- The nine turns of R177's trace, and then turns of PORT: CTRL and CHAN never move again. -/
def turns177 (k : Nat) : Turn :=
  [.ctrl false, .ctrl false, .ctrl false, .chan, .port, .chan, .ctrl false, .port, .ctrl false].getD k .port

/-- The state of R177, with the SHOW offered. -/
def start177 : State :=
  { State.reset with on := [true, true], data := [0x01], pending := [0x5] }

/-- The run of given turns from a state. -/
def follow (turns : Nat → Turn) (s : State) : Nat → State
  | 0 => s
  | k + 1 =>
    match runTurn (turns k) (follow turns s k) with
    | .next t => t
    | _ => follow turns s k

/-- R177, step 9: the frame is out, the block idle. -/
theorem test_trace177 : (follow turns177 start177 9).wire = [.latchFall, .byte 0x06, .byte 0x3F, .latchRise] ∧
    (follow turns177 start177 9).phase = .idle := by decide

theorem follow177_rests (k : Nat) : follow turns177 start177 (9 + k) = follow turns177 start177 9 := by
  induction k with
  | zero => rfl
  | succ k ih =>
    have ht : turns177 (9 + k) = .port := by simp [turns177]
    rw [← Nat.add_assoc, follow, ih, ht]
    decide

theorem follow177_run : IsRun turns177 (follow turns177 start177) := by
  intro k
  by_cases hk : k < 9
  · interval_cases k <;> rfl
  · obtain ⟨j, rfl⟩ := Nat.exists_eq_add_of_le (Nat.le_of_not_lt hk)
    have ht : turns177 (9 + j) = .port := by simp [turns177]
    rw [Nat.add_assoc, follow177_rests, follow177_rests, ht]
    rfl

theorem follow177_fair : WeaklyFair turns177 (follow turns177 start177) := by
  intro agent k
  refine ⟨9 + k, by omega, .inl ?_⟩
  rw [follow177_rests]
  cases agent <;> decide

theorem turns177_no_error (k : Nat) : turns177 k ≠ .ctrl true := by
  by_cases hk : k < 9
  · interval_cases k <;> decide
  · obtain ⟨j, rfl⟩ := Nat.exists_eq_add_of_le (Nat.le_of_not_lt hk)
    simp [turns177]

theorem start177_full : start177.FullInv := by
  refine ⟨⟨?_, ⟨?_, ?_, ?_, ?_, ?_, ?_, ?_, ?_, ?_, ?_⟩, ?_, ?_⟩, ?_, ?_⟩ <;> decide

theorem witness_EveryConfigurationHasALegalTable : 15 < 16 ∧ cfg4.segTable[15]? = some 0x71 := by decide

theorem witness_RunsOfTurnsAreRunsOfTheMachine : ∃ turns states, IsRun turns states := ⟨_, _, follow177_run⟩

theorem witness_WeaklyFairRunsCompleteAShow : ∃ (turns : Nat → Turn) (states : Nat → State) (k w : Nat) (rest : List Nat),
    IsRun turns states ∧ WeaklyFair turns states ∧ NoFlushError turns states k ∧ (states k).FullInv ∧
      (states k).phase = .idle ∧ (states k).pending = w :: rest ∧ decode (states k).cfg w = .command .showFrame :=
  ⟨_, _, 0, 0x5, [], follow177_run, follow177_fair, fun j _ _ _ => turns177_no_error j, start177_full, rfl, rfl, rfl⟩

theorem witness_WeaklyFairRunsFollowTheSequentialDisplay :
    ∃ (turns : Nat → Turn) (states : Nat → State) (k : Nat) (commands : List Instr),
      IsRun turns states ∧ WeaklyFair turns states ∧ NoFlushError turns states k ∧ (states k).FullInv ∧
        (states k).phase = .idle ∧ (states k).pending.map (decode (states k).cfg) = commands.map .command ∧
        commands ≠ [] :=
  ⟨_, _, 0, [.showFrame], follow177_run, follow177_fair, fun j _ _ _ => turns177_no_error j, start177_full, rfl,
   by decide, by decide⟩

/-- A fair round: CTRL, CHAN and PORT, once each. -/
def round : List Turn := [.ctrl false, .chan, .port]

theorem witness_FairTurnsCompleteAShow : ∃ (s : State) (w : Nat) (rounds : List (List Turn)),
    s.FullInv ∧ s.phase = .idle ∧ s.pending = [w] ∧ decode s.cfg w = .command .showFrame ∧
      s.sched = rounds.flatten ∧ (∀ r ∈ rounds, FairRound r) ∧ showSteps s.cfg ≤ rounds.length :=
  ⟨{ idle4 with pending := [0x5], sched := (List.replicate 14 round).flatten }, 0x5, List.replicate 14 round,
   idle4_full, rfl, rfl, rfl, rfl, by
     intro r hr
     rw [List.eq_of_mem_replicate hr]
     decide, by decide⟩
theorem witness_CommandsRunInOrderAsTheSequentialDisplay :
    ∃ (s : State) (commands : List Instr) (rounds : List (List Turn)),
      s.FullInv ∧ s.phase = .idle ∧ s.pending.map (decode s.cfg) = commands.map .command ∧
      s.sched = rounds.flatten ∧ (∀ r ∈ rounds, FairRound r) ∧ commands.length * showSteps s.cfg ≤ rounds.length :=
  ⟨{ idle4 with pending := [0x1, 0x5], sched := (List.replicate 28 round).flatten }, [.allOff, .showFrame],
   List.replicate 28 round, idle4_full, rfl, by decide, rfl, by
     intro r hr
     rw [List.eq_of_mem_replicate hr]
     decide, by decide⟩

end Sys2Proof.Tests
end

namespace Sys2Proof
/-! The legality of tables (40_encoder.md R101, R102, R104). -/

/-- R101 item 2 at one digit: the table has an entry there, and its lit segments, read through `LIT_LEVEL`, are one of
the digit's glyphs. -/
def ShowsGlyphAt (litLevel : Bool) (segTable : List Byte) (d : Nat) : Prop :=
  ∃ p lits lit, segTable[d]? = some p ∧ glyphs[d]? = some lits ∧ lit ∈ lits ∧
    (if litLevel then p else 0x7F &&& ~~~p) = patternOf lit

/-- What the Boolean check of R101 item 2 asks for, digit by digit. -/
theorem showsGlyphs_iff (litLevel : Bool) (segTable : List Byte) :
    showsGlyphs litLevel segTable = true ↔ ∀ d < 16, ShowsGlyphAt litLevel segTable d := by
  simp only [showsGlyphs, List.all_eq_true, List.mem_range]
  refine forall₂_congr fun d _ => ?_
  unfold ShowsGlyphAt
  cases segTable[d]? with
  | none => simp
  | some p =>
    cases glyphs[d]? with
    | none => simp
    | some lits => simp [List.any_eq_true]

/-- R101 items 2 and 4 at one digit of a configuration's table. -/
theorem Config.segTable_shows_glyph (c : Config) {d : Nat} (hd : d < 16) :
    ∃ p lits lit, c.segTable[d]? = some p ∧ p.getLsbD 7 = false ∧ glyphs[d]? = some lits ∧ lit ∈ lits ∧
      (if c.litLevel then p else 0x7F &&& ~~~p) = patternOf lit := by
  have shows : ShowsGlyphAt c.litLevel c.segTable d :=
    (showsGlyphs_iff c.litLevel c.segTable).1 c.conventional_of_legal d hd
  obtain ⟨p, lits, lit, entry, digitGlyphs, listed, pattern⟩ := shows
  obtain ⟨-, -, -, -, bit7⟩ := c.legal_parts
  exact ⟨p, lits, lit, entry, bit7 p (List.mem_of_getElem? entry), digitGlyphs, listed, pattern⟩

/-- Settles O51: a configuration carries its table's legality, read here digit by digit; the two candidates of R104 are
evaluated. -/
theorem everyConfigurationHasALegalTable : Obligations.EveryConfigurationHasALegalTable := by
  refine ⟨fun c => ⟨?_, fun d hd => c.segTable_shows_glyph hd⟩, by decide, by decide, by decide⟩
  obtain ⟨-, -, -, length, -⟩ := c.legal_parts
  exact length

end Sys2Proof

namespace Sys2Proof.Machine
/-! Runs whose turns come from outside (00_scope.md R13; 10_state.md R38). -/

/-- An infinite run without its first turn is an infinite run. -/
theorem IsRun.tail {turns : Nat → Turn} {states : Nat → State} (run : IsRun turns states) :
    IsRun (fun k => turns (k + 1)) (fun k => states (k + 1)) :=
  fun k => run (k + 1)

/-- A run of the machine whose first turn is listed: that turn, and then the run of the turns after it. -/
theorem runFor_succ_listed {t : Turn} {s u : State} (moves : runTurn t s = .next u) (k : Nat) (turns : List Turn) :
    runFor (k + 1) { s with sched := t :: turns } = runFor k { u with sched := turns } := by
  have stepped : step { s with sched := t :: turns } = .next { u with sched := turns } := by
    rw [step_listed, moves, withSched]
  rw [runFor_succ, stepped]

/-- The machine follows a run whose first `k` turns are listed, by induction on `k` along the tail of the run. -/
theorem IsRun.runFor_eq {turns : Nat → Turn} {states : Nat → State} (run : IsRun turns states) (later : List Turn)
    (k : Nat) :
    runFor k { states 0 with sched := (List.range k).map turns ++ later } =
      .next { states k with sched := later } := by
  induction k generalizing turns states with
  | zero => rfl
  | succ k ih =>
    have listed : (List.range (k + 1)).map turns = turns 0 :: (List.range k).map (fun j => turns (j + 1)) := by
      rw [List.range_succ_eq_map, List.map_cons, List.map_map]
      rfl
    rw [listed, List.cons_append, runFor_succ_listed (run 0)]
    exact ih (IsRun.tail run)

/-- Settles O52, by induction on the number of turns, each listed turn being one step of the machine. -/
theorem runsOfTurnsAreRunsOfTheMachine : Obligations.RunsOfTurnsAreRunsOfTheMachine :=
  fun _ _ later k run => run.runFor_eq later k

end Sys2Proof.Machine

namespace Sys2Proof.Machine
/-! The invariant of R41, read location by location: what holds wherever CTRL stands, and what holds where it stands. -/

/-- The channel at rest, as reset and WAIT_CHAN leave it (R35, R156). -/
abbrev Chan.AtRest (c : Chan) : Prop := c.active = false ∧ c.idx = 0 ∧ c.done = false

/-- The part of the invariant that does not ask where CTRL stands. -/
structure State.Standing (s : State) : Prop where
  shaped : s.Shaped
  points : s.PointsLegal
  configured : s.acc.Configured
  queue : s.QueueFits
  edges : s.EdgesMatchLatch

/-- What holds in `IDLE` (R41 item 2). -/
abbrev State.AtIdle (s : State) : Prop :=
  s.owner = .ctrlSlots ∧ s.latch = true ∧ s.chan.AtRest ∧ s.portQ = [] ∧ s.ri = 0 ∧ s.cause = .none

/-- What holds in `RENDER` (R41 item 3). -/
abbrev State.AtRender (s : State) : Prop :=
  s.owner = .showOp ∧ s.latch = true ∧ s.chan.AtRest ∧ s.portQ = [] ∧ s.ri ≤ s.cfg.dlen ∧ s.cause = .none

/-- What holds in the first wait of a transfer (R41 items 4 and 6, R165). -/
abbrev State.AtDmaWait (s : State) : Prop :=
  s.owner = .xfer ∧ s.latch = false ∧ s.chan.active = true ∧ s.chan.idx ≤ s.cfg.n ∧
    (s.chan.done = true ↔ s.chan.idx = s.cfg.n) ∧ s.ri = 0 ∧ s.cause = .none

/-- What holds in the second wait of a transfer (R41 item 5). -/
abbrev State.AtFlushWait (s : State) : Prop :=
  s.owner = .showOp ∧ s.latch = false ∧ s.chan.AtRest ∧ s.ri = 0 ∧ s.cause = .none

/-- What holds in `FAULT` (R41 item 9). -/
abbrev State.AtFault (s : State) : Prop := s.chan.AtRest ∧ s.cause ≠ .none

/-- What holds where CTRL stands. -/
def State.AtLocation (s : State) : Prop :=
  match s.phase, s.xsub with
  | .idle, _ => s.AtIdle
  | .render, _ => s.AtRender
  | .xmit, .dmaWait => s.AtDmaWait
  | .xmit, .flushWait => s.AtFlushWait
  | .fault, _ => s.AtFault

section Location
variable {s : State}

theorem atLocation_idle (phase : s.phase = .idle) : s.AtLocation ↔ s.AtIdle := by
  simp only [State.AtLocation, phase]

theorem atLocation_render (phase : s.phase = .render) : s.AtLocation ↔ s.AtRender := by
  simp only [State.AtLocation, phase]

theorem atLocation_dmaWait (phase : s.phase = .xmit) (sub : s.xsub = .dmaWait) : s.AtLocation ↔ s.AtDmaWait := by
  simp only [State.AtLocation, phase, sub]

theorem atLocation_flushWait (phase : s.phase = .xmit) (sub : s.xsub = .flushWait) :
    s.AtLocation ↔ s.AtFlushWait := by
  simp only [State.AtLocation, phase, sub]

theorem atLocation_fault (phase : s.phase = .fault) : s.AtLocation ↔ s.AtFault := by
  simp only [State.AtLocation, phase]

end Location

/-- What the invariant says beyond its standing part is what holds where CTRL stands. -/
theorem atLocation_iff (s : State) : s.AtLocation ↔
    s.IdleAtRest ∧ s.RenderHolds ∧ s.DmaWaitHolds ∧ s.FlushWaitHolds ∧ s.ChanLegal ∧ s.CauseMatchesPhase ∧
      s.ChanProgress ∧ s.CounterRests := by
  cases phase : s.phase with
  | idle =>
    rw [atLocation_idle phase]
    grind
  | render =>
    rw [atLocation_render phase]
    grind
  | xmit =>
    cases sub : s.xsub with
    | dmaWait =>
      rw [atLocation_dmaWait phase sub]
      grind
    | flushWait =>
      rw [atLocation_flushWait phase sub]
      grind
  | fault =>
    rw [atLocation_fault phase]
    grind

/-- The invariant is its standing part and the part of the location. -/
theorem inv_iff_atLocation (s : State) : s.Inv ↔ s.Standing ∧ s.AtLocation := by
  rw [atLocation_iff]
  constructor
  · rintro ⟨shaped, ⟨points, idle, render, dma, flush, chan, configured, queue, cause, edges⟩, progress, counter⟩
    exact ⟨⟨shaped, points, configured, queue, edges⟩, idle, render, dma, flush, chan, cause, progress, counter⟩
  · rintro ⟨⟨shaped, points, configured, queue, edges⟩, idle, render, dma, flush, chan, cause, progress, counter⟩
    exact ⟨shaped, ⟨points, idle, render, dma, flush, chan, configured, queue, cause, edges⟩, progress, counter⟩

/-! Each operation of 43_transfer.md R147 keeps the invariant, taking CTRL from one location to the next. -/

/-- Fault entry, with the channel at rest (R188). -/
theorem raise_keeps_inv {cause : Cause} {s : State} (inv : s.Inv) (resting : s.chan.AtRest) (some : cause ≠ .none) :
    (raise cause s).Inv := by
  obtain ⟨⟨shaped, points, configured, queue, edges⟩, -⟩ := (inv_iff_atLocation s).1 inv
  exact (inv_iff_atLocation _).2 ⟨⟨shaped, points, configured, queue, edges⟩,
    Iff.mpr (atLocation_fault rfl) ⟨resting, some⟩⟩

/-- TAKE, from `IDLE` to `RENDER` (R150). -/
theorem take_keeps_inv {s : State} (inv : s.Inv) (ready : s.phase = .idle) : (take s).Inv := by
  obtain ⟨⟨shaped, points, configured, queue, edges⟩, location⟩ := (inv_iff_atLocation s).1 inv
  obtain ⟨-, latch, chan, empty, -, cause⟩ := (atLocation_idle ready).1 location
  exact (inv_iff_atLocation _).2 ⟨⟨shaped, points, configured, queue, edges⟩,
    Iff.mpr (atLocation_render rfl) ⟨rfl, latch, chan, empty, Nat.zero_le _, cause⟩⟩

theorem pointsOf_legal (mask : List Bool) : ∀ p ∈ pointsOf mask, p = 0x00 ∨ p = 0x80 := by
  intro p mem
  obtain ⟨m, -, rfl⟩ := List.mem_map.1 mem
  cases m
  · exact .inl rfl
  · exact .inr rfl

/-- A command offered to CTRL (R83, R115). -/
theorem execMove_keeps_inv {s t : State} (inv : s.Inv) (move : ExecMove s t) : t.Inv := by
  obtain ⟨⟨⟨on, points, data, bits⟩, legal, configured, queue, edges⟩, location⟩ := (inv_iff_atLocation s).1 inv
  cases move with
  | held => exact inv
  | on _ mask len =>
    exact (inv_iff_atLocation _).2 ⟨⟨⟨len, points, data, bits⟩, legal, configured, queue, edges⟩, location⟩
  | points _ mask len =>
    have length : (pointsOf mask).length = s.cfg.n := by rw [pointsOf, List.length_map, len]
    exact (inv_iff_atLocation _).2
      ⟨⟨⟨on, length, data, bits⟩, pointsOf_legal mask, configured, queue, edges⟩, location⟩
  | data _ bytes len =>
    exact (inv_iff_atLocation _).2 ⟨⟨⟨on, points, len, bits⟩, legal, configured, queue, edges⟩, location⟩
  | taken ready => exact take_keeps_inv inv ready

/-- The two buffer writes of a render step, and its count (R131, R132). -/
theorem rendered_keeps_inv {s : State} (inv : s.Inv) (rendering : s.phase = .render) (more : s.ri < s.cfg.dlen)
    (b x y : Byte) :
    State.Inv { s with acc := { s.acc with accum := b },
                       bits := (s.bits.set (2 * s.ri) x).set (2 * s.ri + 1) y, ri := s.ri + 1 } := by
  obtain ⟨⟨⟨on, points, data, bits⟩, legal, configured, queue, edges⟩, location⟩ := (inv_iff_atLocation s).1 inv
  obtain ⟨owner, latch, chan, empty, -, cause⟩ := (atLocation_render rendering).1 location
  have length : ((s.bits.set (2 * s.ri) x).set (2 * s.ri + 1) y).length = s.cfg.n := by
    rw [List.length_set, List.length_set, bits]
  exact (inv_iff_atLocation _).2 ⟨⟨⟨on, points, data, length⟩, legal, configured, queue, edges⟩,
    Iff.mpr (atLocation_render rendering) ⟨owner, latch, chan, empty, more, cause⟩⟩

/-- LATCH_LOW and XFER_START, from `RENDER` to the first wait (R153, R154). -/
theorem started_keeps_inv {s : State} (inv : s.Inv) (rendering : s.phase = .render) :
    (xferStart (latchLow s)).Inv := by
  obtain ⟨⟨shaped, points, configured, queue, edges⟩, location⟩ := (inv_iff_atLocation s).1 inv
  obtain ⟨-, latch, -, -, -, cause⟩ := (atLocation_render rendering).1 location
  have fallen : (xferStart (latchLow s)).EdgesMatchLatch := by
    simpa [State.EdgesMatchLatch, latch] using edges
  have unfinished : 0 ≠ s.cfg.n := by
    obtain ⟨-, two, -⟩ := s.cfg.legal_parts
    omega
  exact (inv_iff_atLocation _).2 ⟨⟨shaped, points, configured, queue, fallen⟩,
    Iff.mpr (atLocation_dmaWait rfl rfl) ⟨rfl, rfl, rfl, Nat.zero_le _, by simpa using unfinished, rfl, cause⟩⟩

/-- WAIT_CHAN, from the first wait to the second (R156). -/
theorem waitChan_keeps_inv {s : State} (inv : s.Inv) (sending : s.phase = .xmit) (sub : s.xsub = .dmaWait) :
    (waitChan s).Inv := by
  obtain ⟨⟨shaped, points, configured, queue, edges⟩, location⟩ := (inv_iff_atLocation s).1 inv
  obtain ⟨-, latch, -, -, -, ri, cause⟩ := (atLocation_dmaWait sending sub).1 location
  exact (inv_iff_atLocation _).2 ⟨⟨shaped, points, configured, queue, edges⟩,
    Iff.mpr (atLocation_flushWait sending rfl) ⟨rfl, latch, ⟨rfl, rfl, rfl⟩, ri, cause⟩⟩

/-- LATCH_HIGH_RETURN, from the second wait to `IDLE` (R160). -/
theorem latchHighReturn_keeps_inv {s : State} (inv : s.Inv) (sending : s.phase = .xmit) (sub : s.xsub = .flushWait)
    (empty : s.portQ = []) : (latchHighReturn s).Inv := by
  obtain ⟨⟨shaped, points, configured, queue, edges⟩, location⟩ := (inv_iff_atLocation s).1 inv
  obtain ⟨-, latch, chan, ri, cause⟩ := (atLocation_flushWait sending sub).1 location
  have risen : (latchHighReturn s).EdgesMatchLatch := by
    simpa [State.EdgesMatchLatch, latch] using edges
  exact (inv_iff_atLocation _).2 ⟨⟨shaped, points, configured, queue, risen⟩,
    Iff.mpr (atLocation_idle rfl) ⟨rfl, rfl, chan, empty, ri, cause⟩⟩

theorem ctrlMove_keeps_inv {flushErr : Bool} {s t : State} (inv : s.Inv) (move : CtrlMove flushErr s t) : t.Inv := by
  obtain ⟨⟨-, -, configured, -, -⟩, location⟩ := (inv_iff_atLocation s).1 inv
  cases move with
  | noWord | pastTheEnd | chanAwaited | flushAwaited | stopped => exact inv
  | command _ _ rest _ _ _ _ done => exact execMove_keeps_inv (s := { s with pending := rest }) inv done
  | illegal ready w rest =>
    obtain ⟨-, -, chan, -⟩ := (atLocation_idle ready).1 location
    exact raise_keeps_inv (s := { s with pending := rest }) inv chan (by decide)
  | rendered rendering more b x y => exact rendered_keeps_inv inv rendering more b x y
  | unconfigured _ _ bad => exact absurd configured.1 (by simp [bad])
  | started rendering => exact started_keeps_inv inv rendering
  | chanSeen sending sub => exact waitChan_keeps_inv inv sending sub
  | flushFailed sending sub =>
    obtain ⟨-, -, chan, -⟩ := (atLocation_flushWait sending sub).1 location
    exact raise_keeps_inv inv chan (by decide)
  | flushed sending sub _ empty => exact latchHighReturn_keeps_inv inv sending sub empty

/-- CHAN moves in the first wait only, and its count goes up to N (R164, R165). -/
theorem chanMove_keeps_inv {s t : State} (inv : s.Inv) (moves : chanMove s = .next t) : t.Inv := by
  obtain ⟨-, rfl⟩ | ⟨b, active, -, more, room, -, rfl⟩ := chanMove_next moves
  · exact inv
  · have ⟨_, _, ⟨running, _⟩, _⟩ := inv
    obtain ⟨sending, sub⟩ := running active
    obtain ⟨⟨shaped, points, configured, -, edges⟩, location⟩ := (inv_iff_atLocation s).1 inv
    obtain ⟨owner, latch, -, -, -, ri, cause⟩ := (atLocation_dmaWait sending sub).1 location
    have fits : (s.portQ ++ [b]).length ≤ s.cfg.portQueueDepth := by
      rw [List.length_append, List.length_singleton]
      exact room
    exact (inv_iff_atLocation _).2 ⟨⟨shaped, points, configured, fits, edges⟩,
      Iff.mpr (atLocation_dmaWait sending sub) ⟨owner, latch, rfl, more, decide_eq_true_iff, ri, cause⟩⟩

/-- PORT moves only where no location asks for an empty queue, and its byte is no edge of the latch (R167). -/
theorem portShift_keeps_inv {s : State} (inv : s.Inv) : (portShift s).Inv := by
  obtain ⟨-, same⟩ | ⟨b, rest, queued, same⟩ := portShift_cases s <;> rw [same]
  · exact inv
  · obtain ⟨⟨shaped, points, configured, queue, edges⟩, location⟩ := (inv_iff_atLocation s).1 inv
    have fits : rest.length ≤ s.cfg.portQueueDepth := by
      rw [State.QueueFits, queued, List.length_cons] at queue
      exact Nat.le_of_succ_le queue
    have sameEdges : State.EdgesMatchLatch { s with portQ := rest, wire := s.wire ++ [.byte b] } := by
      simpa [State.EdgesMatchLatch] using edges
    refine (inv_iff_atLocation _).2 ⟨⟨shaped, points, configured, fits, sameEdges⟩, ?_⟩
    cases phase : s.phase with
    | idle =>
      obtain ⟨-, -, -, empty, -⟩ := (atLocation_idle phase).1 location
      exact absurd queued (by simp [empty])
    | render =>
      obtain ⟨-, -, -, empty, -⟩ := (atLocation_render phase).1 location
      exact absurd queued (by simp [empty])
    | xmit =>
      cases sub : s.xsub with
      | dmaWait => exact Iff.mpr (atLocation_dmaWait rfl rfl) ((atLocation_dmaWait phase sub).1 location)
      | flushWait => exact Iff.mpr (atLocation_flushWait rfl rfl) ((atLocation_flushWait phase sub).1 location)
    | fault => exact Iff.mpr (atLocation_fault rfl) ((atLocation_fault phase).1 location)

/-- Settles O44: the turn is used up, which the invariant does not see, and then the agent's move keeps it. -/
theorem everyStepKeepsTheInvariant : Obligations.EveryStepKeepsTheInvariant := by
  intro s t inv stepped
  have spent : s.spendTurn.Inv := (spendTurn_inv s).2 inv
  obtain ⟨w, -, rfl⟩ | ⟨flushErr, -, move⟩ | ⟨-, moves⟩ | ⟨-, rfl⟩ := step_next stepped
  · exact spent
  · exact ctrlMove_keeps_inv spent move
  · exact chanMove_keeps_inv spent moves
  · exact portShift_keeps_inv spent

end Sys2Proof.Machine

namespace Sys2Proof.Machine
/-! Frames (10_state.md R38, R190): only CTRL writes more than the channel, the port queue, the log and the inputs, and
in `FAULT` nothing does. -/

/-- `t` agrees with `s` on all but the channel, the port queue, the log and the inputs. -/
structure State.SameButTransfer (s t : State) : Prop where
  cfg : t.cfg = s.cfg
  on : t.on = s.on
  points : t.points = s.points
  data : t.data = s.data
  bits : t.bits = s.bits
  phase : t.phase = s.phase
  xsub : t.xsub = s.xsub
  ri : t.ri = s.ri
  cause : t.cause = s.cause
  latch : t.latch = s.latch
  acc : t.acc = s.acc
  owner : t.owner = s.owner

theorem State.SameButTransfer.refl (s : State) : s.SameButTransfer s := by
  constructor <;> rfl

theorem State.SameButTransfer.trans {s t u : State} (first : s.SameButTransfer t) (second : t.SameButTransfer u) :
    s.SameButTransfer u where
  cfg := second.cfg.trans first.cfg
  on := second.on.trans first.on
  points := second.points.trans first.points
  data := second.data.trans first.data
  bits := second.bits.trans first.bits
  phase := second.phase.trans first.phase
  xsub := second.xsub.trans first.xsub
  ri := second.ri.trans first.ri
  cause := second.cause.trans first.cause
  latch := second.latch.trans first.latch
  acc := second.acc.trans first.acc
  owner := second.owner.trans first.owner

theorem spendTurn_same (s : State) : s.SameButTransfer s.spendTurn := by
  constructor <;> simp

theorem pending_same (s : State) (pending : List Nat) : s.SameButTransfer { s with pending := pending } := by
  constructor <;> rfl

theorem chanMove_same {s t : State} (moves : chanMove s = .next t) : s.SameButTransfer t := by
  obtain ⟨-, rfl⟩ | ⟨b, -, -, -, -, -, rfl⟩ := chanMove_next moves
  · exact .refl t
  · constructor <;> rfl

theorem portShift_same (s : State) : s.SameButTransfer (portShift s) := by
  obtain ⟨-, same⟩ | ⟨b, rest, -, same⟩ := portShift_cases s <;> rw [same]
  · exact .refl s
  · constructor <;> rfl

/-- A step is a move of CTRL, or leaves all that is neither input nor part of the transfer (R20, R164, R167). -/
theorem step_ctrlMove_or_same {s t : State} (stepped : step s = .next t) :
    (∃ flushErr, CtrlMove flushErr s.spendTurn t) ∨ s.SameButTransfer t := by
  obtain ⟨w, -, rfl⟩ | ⟨flushErr, -, move⟩ | ⟨-, moves⟩ | ⟨-, rfl⟩ := step_next stepped
  · exact .inr ((spendTurn_same s).trans (pending_same _ _))
  · exact .inl ⟨flushErr, move⟩
  · exact .inr ((spendTurn_same s).trans (chanMove_same moves))
  · exact .inr ((spendTurn_same s).trans (portShift_same _))

/-- In `FAULT` CTRL has no step (R190). -/
theorem ctrlMove_of_fault {flushErr : Bool} {s t : State} (faulted : s.phase = .fault)
    (move : CtrlMove flushErr s t) : t = s := by
  cases move with
  | stopped => rfl
  | _ => simp_all

theorem step_same_of_fault {s t : State} (faulted : s.phase = .fault) (stepped : step s = .next t) :
    s.SameButTransfer t := by
  obtain ⟨flushErr, move⟩ | same := step_ctrlMove_or_same stepped
  · rw [ctrlMove_of_fault ((spendTurn_phase s).trans faulted) move]
    exact spendTurn_same s
  · exact same

/-- `FAULT` is final, in runs of every length (R190). -/
theorem runFor_same_of_fault {s t : State} {k : Nat} (faulted : s.phase = .fault) (runs : runFor k s = .next t) :
    s.SameButTransfer t := by
  induction k generalizing s with
  | zero =>
    cases runs
    exact .refl _
  | succ k ih =>
    rw [runFor_succ] at runs
    cases stepped : step s with
    | next u =>
      rw [stepped] at runs
      have same : s.SameButTransfer u := step_same_of_fault faulted stepped
      exact same.trans (ih (same.phase.trans faulted) runs)
    | fault r =>
      rw [stepped] at runs
      cases runs
    | refused r =>
      rw [stepped] at runs
      cases runs

end Sys2Proof.Machine

namespace Sys2Proof.Machine
/-! Reset and the reachable states (10_state.md R41, R42). -/

/-- Settles O41: each value is read off `State.resetOf`. -/
theorem resetValues : Obligations.ResetValues :=
  fun c => ⟨State.resetOf c, rfl, rfl, rfl, rfl, rfl, rfl, rfl, rfl, rfl, rfl, rfl, rfl, rfl, rfl, rfl, rfl, rfl, rfl,
    rfl⟩

theorem resetOf_standing (c : Config) : (State.resetOf c).Standing where
  shaped := ⟨List.length_replicate, List.length_replicate, List.length_replicate, List.length_replicate⟩
  points := fun _ mem => .inl (List.eq_of_mem_replicate mem)
  configured := ⟨rfl, rfl, rfl, rfl⟩
  queue := Nat.zero_le _
  edges := rfl

/-- No invariant speaks of the inputs, so they are any. -/
theorem resetOf_inv (c : Config) (pending : List Nat) (sched : List Turn) (tick : Nat) :
    State.Inv { State.resetOf c with pending := pending, sched := sched, tick := tick } :=
  (inv_iff_atLocation (State.resetOf c)).2
    ⟨resetOf_standing c, (atLocation_idle rfl).2 ⟨rfl, rfl, ⟨rfl, rfl, rfl⟩, rfl, rfl, rfl⟩⟩

/-- At reset the log is empty and the block idle: between frames, with nothing rendered or moved. -/
theorem resetOf_fullInv (c : Config) (pending : List Nat) (sched : List Turn) (tick : Nat) :
    State.FullInv { State.resetOf c with pending := pending, sched := sched, tick := tick } :=
  ⟨resetOf_inv c pending sched tick, ⟨rfl, Nat.zero_le _, rfl, nofun⟩, nofun, nofun⟩

/-- Settles O43: `State.reset` is the reset state of the reference configuration, with no inputs. -/
theorem resetMeetsTheInvariants : Obligations.ResetMeetsTheInvariants :=
  ⟨resetOf_fullInv Config.reference [] [] 0, resetOf_fullInv⟩

theorem reachable_inv {c : Config} {s : State} (reached : Reachable c s) : s.Inv := by
  induction reached with
  | start pending sched tick => exact resetOf_inv c pending sched tick
  | step _ stepped ih => exact everyStepKeepsTheInvariant _ _ ih stepped

/-- Settles O47, by the invariant of the reachable states and, for the second half of item 9, the frame of a run from
`FAULT`. -/
theorem reachableStatesMeetTheTenInvariants : Obligations.ReachableStatesMeetTheTenInvariants := by
  intro c s reached
  obtain ⟨-, rules, -, -⟩ := reachable_inv reached
  refine ⟨rules, fun faulted k t runs => ?_⟩
  have same : s.SameButTransfer t := runFor_same_of_fault faulted runs
  exact ⟨same.phase, same.cause, same.on, same.points, same.data, same.bits, same.latch, same.owner⟩

end Sys2Proof.Machine

namespace Sys2Proof.Machine
/-! The control state: which moves of CTRL write `phase`, `owner`, `cause` and the parameters (10_state.md R28, R30,
R34, R38), and the flags read from it (R29). -/

theorem accept_phase {effect : State → State} {s t : State} (runs : accept effect s = .next t)
    (keeps : ∀ s, (effect s).phase = s.phase) : t.phase = s.phase := by
  obtain ⟨-, rfl⟩ | ⟨-, rfl⟩ := accept_next runs
  · exact keeps s
  · rfl

theorem acceptSized_phase {len want : Nat} {effect : State → State} {s t : State}
    (runs : acceptSized len want effect s = .next t) (keeps : ∀ s, (effect s).phase = s.phase) :
    t.phase = s.phase := by
  obtain ⟨-, -, rfl⟩ | ⟨-, rfl⟩ := acceptSized_next runs
  · exact keeps s
  · rfl

/-- "A mutation command leaves `phase = IDLE`" (R28). -/
theorem exec_phase {i : Instr} {s t : State} (mutation : i ≠ .showFrame) (runs : exec i s = .next t) :
    t.phase = s.phase := by
  cases i with
  | allOn =>
    unfold exec execAllOn at runs
    exact accept_phase runs fun _ => rfl
  | allOff =>
    unfold exec execAllOff at runs
    exact accept_phase runs fun _ => rfl
  | on mask =>
    unfold exec execOn at runs
    exact acceptSized_phase runs fun _ => rfl
  | dPoints mask =>
    unfold exec execDPoints at runs
    exact acceptSized_phase runs fun _ => rfl
  | values bytes =>
    unfold exec execValues at runs
    exact acceptSized_phase runs fun _ => rfl
  | showFrame => exact absurd rfl mutation

/-- An accepted command that changes `phase` is SHOW, taken (R28, R150). -/
theorem exec_phase_changed {i : Instr} {s t : State} (ready : s.phase = .idle) (runs : exec i s = .next t)
    (changed : t.phase ≠ s.phase) : i = .showFrame ∧ t.phase = .render := by
  obtain rfl : i = .showFrame := by_contra fun mutation => changed (exec_phase mutation runs)
  obtain ⟨-, rfl⟩ | ⟨busy, -⟩ := accept_next runs
  · exact ⟨rfl, rfl⟩
  · exact absurd ready busy

/-- Settles O34: of the moves of CTRL, those that change `phase`. -/
theorem phaseMovesOnlyAsListed : Obligations.PhaseMovesOnlyAsListed := by
  intro s t stepped changed
  obtain ⟨flushErr, move⟩ | same := step_ctrlMove_or_same stepped
  · rw [← spendTurn_phase s] at changed ⊢
    rw [← spendTurn_pending s, ← spendTurn_cfg s, ← spendTurn_ri s, ← spendTurn_xsub s, ← spendTurn_portQ s,
      ← spendTurn_acc s]
    cases move with
    | noWord | rendered | pastTheEnd | chanAwaited | chanSeen | flushAwaited | stopped => exact absurd rfl changed
    | command ready w rest i offered decoded t done runs =>
      obtain ⟨rfl, rendering⟩ := exec_phase_changed (s := { s.spendTurn with pending := rest }) ready runs changed
      exact .inl ⟨ready, rendering, w, rest, offered, decoded⟩
    | started rendering complete => exact .inr (.inl ⟨rendering, rfl, complete, rfl, rfl⟩)
    | flushed sending sub _ empty => exact .inr (.inr (.inl ⟨sending, rfl, sub, empty, rfl, rfl⟩))
    | flushFailed sending sub => exact .inr (.inr (.inr (.inl ⟨sending, rfl, sub, rfl⟩)))
    | illegal ready w rest op offered decoded =>
      obtain ⟨rfl, reserved⟩ := decode_illegal_iff.1 decoded
      exact .inr (.inr (.inr (.inr (.inl ⟨ready, rfl, rfl, w, rest, offered, reserved⟩))))
    | unconfigured rendering _ bad => exact .inr (.inr (.inr (.inr (.inr ⟨rendering, rfl, rfl, bad⟩))))
  · exact absurd same.phase changed

/-- Settles O35: of the moves of CTRL, those that change `owner`; the invariant gives the owner each of them finds. -/
theorem ownershipGoesRoundTheLoan : Obligations.OwnershipGoesRoundTheLoan := by
  intro s t inv stepped changed
  obtain ⟨flushErr, move⟩ | same := step_ctrlMove_or_same stepped
  · obtain ⟨-, location⟩ := (inv_iff_atLocation _).1 ((spendTurn_inv s).2 inv)
    rw [← spendTurn_phase s, ← spendTurn_xsub s, ← spendTurn_chan s]
    rw [← spendTurn_owner s] at changed ⊢
    cases move with
    | noWord | illegal | rendered | unconfigured | pastTheEnd | chanAwaited | flushFailed | flushAwaited | stopped =>
      exact absurd rfl changed
    | command ready w rest i offered decoded t done =>
      cases done with
      | held | on | points | data => exact absurd rfl changed
      | taken =>
        obtain ⟨owner, -⟩ := (atLocation_idle ready).1 location
        exact .inl ⟨owner, rfl, ready, rfl⟩
    | started rendering =>
      obtain ⟨owner, -⟩ := (atLocation_render rendering).1 location
      exact .inr (.inl ⟨owner, rfl, rendering, rfl⟩)
    | chanSeen sending sub finished =>
      obtain ⟨owner, -⟩ := (atLocation_dmaWait sending sub).1 location
      exact .inr (.inr (.inl ⟨owner, rfl, sub, rfl, finished⟩))
    | flushed sending sub =>
      obtain ⟨owner, -⟩ := (atLocation_flushWait sending sub).1 location
      exact .inr (.inr (.inr ⟨owner, rfl, sending, rfl⟩))
  · exact absurd same.owner changed

theorem causeCode_ne_zero_iff (cause : Cause) : cause.code ≠ 0 ↔ cause ≠ .none := by
  cases cause <;> decide

/-- Of the moves of CTRL, those that change `cause` enter `FAULT` (R30, R188). -/
theorem ctrlMove_cause_changed {flushErr : Bool} {s t : State} (move : CtrlMove flushErr s t)
    (changed : t.cause ≠ s.cause) : s.phase ≠ .fault ∧ t.phase = .fault := by
  cases move with
  | noWord | rendered | started | pastTheEnd | chanAwaited | chanSeen | flushed | flushAwaited | stopped =>
    exact absurd rfl changed
  | command _ _ _ _ _ _ _ done => cases done <;> exact absurd rfl changed
  | illegal ready => exact ⟨by simp [ready], rfl⟩
  | unconfigured rendering => exact ⟨by simp [rendering], rfl⟩
  | flushFailed sending => exact ⟨by simp [sending], rfl⟩

/-- Settles O38: fault entry alone writes the cause, from outside `FAULT`, where item 9 of R41 says there is none. -/
theorem causeIsWrittenOnceByFaultEntry : Obligations.CauseIsWrittenOnceByFaultEntry := by
  refine ⟨rfl, rfl, rfl, rfl, fun _ => rfl, fun s inv => ?_⟩
  obtain ⟨-, ⟨-, -, -, -, -, -, -, -, faultIff, -⟩, -, -⟩ := inv
  refine ⟨(causeCode_ne_zero_iff s.cause).trans faultIff.symm, fun t stepped changed => ?_⟩
  obtain ⟨flushErr, move⟩ | same := step_ctrlMove_or_same stepped
  · rw [← spendTurn_cause s] at changed
    obtain ⟨running, faulted⟩ := ctrlMove_cause_changed move changed
    rw [spendTurn_phase] at running
    exact ⟨not_not.1 fun cause => running (faultIff.2 cause), running, faulted⟩
  · exact absurd same.cause changed

/-- No move of CTRL writes a parameter, and of the accelerator it writes the accumulator alone (R32, R38). -/
theorem ctrlMove_params {flushErr : Bool} {s t : State} (move : CtrlMove flushErr s t) :
    t.cfg = s.cfg ∧ t.acc = { s.acc with accum := t.acc.accum } := by
  cases move with
  | command _ _ _ _ _ _ _ done => cases done <;> exact ⟨rfl, rfl⟩
  | _ => exact ⟨rfl, rfl⟩

/-- Settles O40. -/
theorem parametersAndLanesNeverChange : Obligations.ParametersAndLanesNeverChange := by
  intro s t stepped
  obtain ⟨flushErr, move⟩ | same := step_ctrlMove_or_same stepped
  · obtain ⟨cfg, acc⟩ := ctrlMove_params move
    rw [cfg, acc, spendTurn_cfg, spendTurn_acc]
    exact ⟨rfl, rfl, rfl, rfl, rfl⟩
  · rw [same.cfg, same.acc]
    exact ⟨rfl, rfl, rfl, rfl, rfl⟩

/-- Settles O7: the turn of HOST after the turn is used up, which leaves the pending words. -/
theorem hostTurnOnlyOffersAWord : Obligations.HostTurnOnlyOffersAWord := by
  intro s w turn
  rw [step, turn, runTurn, spendTurn_pending]

/-- Settles O39. -/
theorem statusFlagsFollowTheState : Obligations.StatusFlagsFollowTheState :=
  fun _ => ⟨bne_iff_ne, beq_iff_eq, beq_iff_eq, List.isEmpty_iff, rfl⟩

end Sys2Proof.Machine

namespace Sys2Proof.Machine
/-! What no step does outside its phase: commands are held while the block is busy (43_transfer.md R162), the latch
rises at the end of the second wait only (R158), and the buffer is written by the render pass only (R54). -/

theorem accept_of_busy {effect : State → State} {s : State} (busy : s.phase ≠ .idle) :
    accept effect s = .next s :=
  if_neg busy

theorem acceptSized_of_busy {len want : Nat} {effect : State → State} {s : State} (busy : s.phase ≠ .idle) :
    acceptSized len want effect s = .next s :=
  if_neg busy

/-- A command offered outside `IDLE` is held (R67, R83). -/
theorem exec_of_busy {s : State} (busy : s.phase ≠ .idle) (i : Instr) : exec i s = .next s := by
  cases i with
  | allOn | allOff | showFrame =>
    rw [exec]
    exact accept_of_busy busy
  | on | dPoints | values =>
    rw [exec]
    exact acceptSized_of_busy busy

/-- Outside `IDLE` a move of CTRL takes no word and writes nothing of the logical state (R162). -/
theorem ctrlMove_of_busy {flushErr : Bool} {s t : State} (busy : s.phase ≠ .idle) (move : CtrlMove flushErr s t) :
    t.on = s.on ∧ t.points = s.points ∧ t.data = s.data ∧ t.pending = s.pending := by
  cases move with
  | noWord ready | command ready | illegal ready => exact absurd ready busy
  | _ => exact ⟨rfl, rfl, rfl, rfl⟩

theorem chanMove_pending {s t : State} (moves : chanMove s = .next t) : t.pending = s.pending := by
  obtain ⟨-, rfl⟩ | ⟨b, -, -, -, -, -, rfl⟩ := chanMove_next moves <;> rfl

theorem portShift_pending (s : State) : (portShift s).pending = s.pending := by
  obtain ⟨-, same⟩ | ⟨b, rest, -, same⟩ := portShift_cases s <;> rw [same]

/-- Settles O15: CTRL accepts in `IDLE` only, and of the other agents HOST alone touches the pending words. -/
theorem commandsAreHeldWhileBusy : Obligations.CommandsAreHeldWhileBusy := by
  refine fun s busy => ⟨exec_of_busy busy, fun t stepped => ?_⟩
  obtain ⟨w, turn, rfl⟩ | ⟨flushErr, -, move⟩ | ⟨-, moves⟩ | ⟨-, rfl⟩ := step_next stepped
  · have same := spendTurn_same s
    exact ⟨same.on, same.points, same.data, .inr ⟨w, turn, rfl⟩⟩
  · obtain ⟨on, points, data, pending⟩ := ctrlMove_of_busy (by rwa [spendTurn_phase]) move
    rw [on, points, data, pending]
    simp
  · have same := (spendTurn_same s).trans (chanMove_same moves)
    exact ⟨same.on, same.points, same.data, .inl ((chanMove_pending moves).trans (spendTurn_pending s))⟩
  · have same := (spendTurn_same s).trans (portShift_same s.spendTurn)
    exact ⟨same.on, same.points, same.data, .inl ((portShift_pending _).trans (spendTurn_pending s))⟩

/-- Of the moves of CTRL, LATCH_HIGH_RETURN alone raises the latch (R69, R160). -/
theorem ctrlMove_latch_raised {flushErr : Bool} {s t : State} (move : CtrlMove flushErr s t) (low : s.latch = false)
    (high : t.latch = true) :
    s.phase = .xmit ∧ s.xsub = .flushWait ∧ s.portQ = [] ∧ flushErr = false ∧ t.phase = .idle := by
  have raised : t.latch ≠ s.latch := by simp [low, high]
  cases move with
  | flushed sending sub ok empty => exact ⟨sending, sub, empty, ok, rfl⟩
  | command _ _ _ _ _ _ _ done => cases done <;> exact absurd rfl raised
  | started => cases high
  | _ => exact absurd rfl raised

/-- Settles O31: no other agent writes the latch. -/
theorem latchRisesOnlyAfterBothWaits : Obligations.LatchRisesOnlyAfterBothWaits := by
  intro s t stepped low high
  have sameLatch (same : s.SameButTransfer t) : False := by
    rw [same.latch, low] at high
    cases high
  obtain ⟨w, -, rfl⟩ | ⟨flushErr, turn, move⟩ | ⟨-, moves⟩ | ⟨-, rfl⟩ := step_next stepped
  · exact (sameLatch ((spendTurn_same s).trans (pending_same _ _))).elim
  · obtain ⟨sending, sub, empty, rfl, idle⟩ := ctrlMove_latch_raised move ((spendTurn_latch s).trans low) high
    rw [spendTurn_phase] at sending
    rw [spendTurn_xsub] at sub
    rw [spendTurn_portQ] at empty
    exact ⟨sending, sub, empty, turn, idle⟩
  · exact (sameLatch ((spendTurn_same s).trans (chanMove_same moves))).elim
  · exact (sameLatch ((spendTurn_same s).trans (portShift_same _))).elim

/-- Of the moves of CTRL, the render step alone writes the buffer, and none adds to the port queue (R54, R131). -/
theorem ctrlMove_buffer {flushErr : Bool} {s t : State} (move : CtrlMove flushErr s t) :
    (t.bits = s.bits ∨ s.phase = .render) ∧ t.portQ = s.portQ := by
  cases move with
  | command _ _ _ _ _ _ _ done => cases done <;> exact ⟨.inl rfl, rfl⟩
  | rendered rendering => exact ⟨.inr rendering, rfl⟩
  | _ => exact ⟨.inl rfl, rfl⟩

/-- A step writes the buffer in `RENDER` only. -/
theorem step_bits_or_render {s t : State} (stepped : step s = .next t) : t.bits = s.bits ∨ s.phase = .render := by
  obtain ⟨flushErr, move⟩ | same := step_ctrlMove_or_same stepped
  · obtain ⟨buffer, -⟩ := ctrlMove_buffer move
    rwa [spendTurn_bits, spendTurn_phase] at buffer
  · exact .inl same.bits

/-- A step that adds to the port queue is a move of an active channel (R164). -/
theorem step_queue_grows {s t : State} (stepped : step s = .next t) (grows : s.portQ.length < t.portQ.length) :
    s.chan.active = true ∧ t.bits = s.bits := by
  obtain ⟨w, -, rfl⟩ | ⟨flushErr, -, move⟩ | ⟨-, moves⟩ | ⟨-, rfl⟩ := step_next stepped
  · simp at grows
  · obtain ⟨-, queue⟩ := ctrlMove_buffer move
    simp [queue] at grows
  · obtain ⟨-, rfl⟩ | ⟨b, active, -, -, -, -, rfl⟩ := chanMove_next moves
    · simp at grows
    · exact ⟨(congrArg Chan.active (spendTurn_chan s)).symm.trans active, spendTurn_bits s⟩
  · obtain ⟨-, same⟩ | ⟨b, rest, queued, same⟩ := portShift_cases s.spendTurn <;> rw [same] at grows
    · simp at grows
    · rw [spendTurn_portQ] at queued
      simp only [queued, List.length_cons] at grows
      omega

/-- Settles O36: the invariant gives the owner of the buffer where it is written, and where the channel is active. -/
theorem theBufferIsNeverShared : Obligations.TheBufferIsNeverShared := by
  intro s t inv stepped
  obtain ⟨-, ⟨-, -, render, dma, -⟩, ⟨running, -⟩, -⟩ := inv
  have written (changed : t.bits ≠ s.bits) : s.phase = .render ∧ s.owner = .showOp ∧ s.chan.active = false := by
    have rendering : s.phase = .render := (step_bits_or_render stepped).resolve_left changed
    obtain ⟨owner, -, inactive, -⟩ := render rendering
    exact ⟨rendering, owner, inactive⟩
  refine ⟨written, fun grows => ?_, fun owner => by_contra fun changed => ?_⟩
  · obtain ⟨active, kept⟩ := step_queue_grows stepped grows
    obtain ⟨owner, -⟩ := dma (running active)
    exact ⟨owner, kept⟩
  · obtain ⟨-, showOwns, -⟩ := written changed
    rw [owner] at showOwns
    cases showOwns

end Sys2Proof.Machine

namespace Sys2Proof.Machine
/-! Progress: under the invariant every turn of every agent has a next state (10_state.md R56). -/

theorem acceptWord_runs (w : Nat) (rest : List Nat) (s : State) : ∃ t, acceptWord w rest s = .next t := by
  unfold acceptWord
  split
  · rename_i i decoded
    exact exec_stops_only_on_length (decode_command_wf decoded)
  · exact ⟨_, rfl⟩

theorem ctrlTurn_runs {s : State} (shaped : s.Shaped) (configured : s.acc.Configured) (flushErr : Bool) :
    ∃ t, ctrlTurn flushErr s = .next t := by
  unfold ctrlTurn
  split
  · split
    · exact ⟨_, rfl⟩
    · exact acceptWord_runs _ _ s
  · split
    · rename_i more
      obtain ⟨_, _, _, -, -, -, runs⟩ := renderStep_runs shaped configured more
      exact ⟨_, runs⟩
    · split <;> exact ⟨_, rfl⟩
  · split
    · split <;> exact ⟨_, rfl⟩
    · exact ⟨_, rfl⟩
  · exact ⟨_, rfl⟩

theorem chanMove_runs {s : State} (shaped : s.Shaped) : ∃ t, chanMove s = .next t := by
  obtain ⟨-, -, -, length⟩ := shaped
  unfold chanMove
  split
  · rename_i enabled
    obtain ⟨-, -, more, -⟩ := (enabled_chan s).1 enabled
    have read : memRead s s.chan.idx = some (s.bits[s.chan.idx]'(by omega)) := List.getElem?_eq_getElem _
    rw [read]
    exact ⟨_, rfl⟩
  · exact ⟨_, rfl⟩

theorem runTurn_runs {s : State} (inv : s.Inv) (turn : Turn) : ∃ t, runTurn turn s = .next t := by
  obtain ⟨⟨shaped, -, configured, -, -⟩, -⟩ := (inv_iff_atLocation s).1 inv
  cases turn with
  | host w => exact ⟨_, rfl⟩
  | ctrl flushErr => exact ctrlTurn_runs shaped configured flushErr
  | chan => exact chanMove_runs shaped
  | port => exact ⟨_, rfl⟩

/-- Settles O46: using up the turn keeps the invariant, and then the agent's turn has a next state. -/
theorem noStepStops : Obligations.NoStepStops :=
  fun s inv => runTurn_runs ((spendTurn_inv s).2 inv) s.nextTurn

end Sys2Proof.Machine

namespace Sys2Proof.Machine
/-! The log against the buffer and the queue (43_transfer.md R169), as a relation of its own: one rule for each thing
that a move does to it. -/

/-- The log stands between frames, or inside one with the first bytes of the buffer sent and the next ones queued. -/
structure LogAgrees (n : Nat) (wire : List Event) (latch : Bool) (bits : List Byte) (moved : Nat) (queue : List Byte) :
    Prop where
  position : wirePos n wire = some (if latch then .between else .inside (bits.take (moved - queue.length)))
  queued_le : queue.length ≤ moved
  queued : (bits.take moved).drop (moved - queue.length) = queue

/-- The log's part of the invariant is the agreement, and the latch of each cause of a fault. -/
theorem wireInv_iff (s : State) : s.WireInv ↔ LogAgrees s.cfg.n s.wire s.latch s.bits s.moved s.portQ ∧
    (s.phase = .fault → (s.latch = false ↔ s.cause = .flushFail)) :=
  ⟨fun ⟨position, le, queued, faulted⟩ => ⟨⟨position, le, queued⟩, faulted⟩,
    fun ⟨⟨position, le, queued⟩, faulted⟩ => ⟨position, le, queued, faulted⟩⟩

/-- The log's part from the agreement, at a known count of moved bytes. -/
theorem LogAgrees.wireInv {s : State} {moved : Nat}
    (log : LogAgrees s.cfg.n s.wire s.latch s.bits moved s.portQ) (count : s.moved = moved)
    (faulted : s.phase = .fault → (s.latch = false ↔ s.cause = .flushFail)) : s.WireInv := by
  subst count
  exact (wireInv_iff s).2 ⟨log, faulted⟩

theorem wirePos_append (n : Nat) (wire : List Event) (e : Event) :
    wirePos n (wire ++ [e]) = (wirePos n wire).bind fun position => position.next n e := by
  simp [wirePos, List.foldlM_append]

section Agreement
variable {n moved : Nat} {wire : List Event} {latch : Bool} {bits queue : List Byte}

/-- The agreement says nothing of a buffer of which nothing has been moved. -/
theorem LogAgrees.rewrite (log : LogAgrees n wire latch bits 0 queue) (bits' : List Byte) :
    LogAgrees n wire latch bits' 0 queue := by
  obtain ⟨position, le, queued⟩ := log
  simp only [Nat.zero_sub, List.take_zero] at position queued
  exact ⟨by simpa using position, le, by simpa using queued⟩

/-- LatchFall opens a frame (R153). -/
theorem LogAgrees.fall (log : LogAgrees n wire true bits 0 queue) :
    LogAgrees n (wire ++ [.latchFall]) false bits 0 queue where
  position := by
    rw [wirePos_append, log.position]
    simp [WirePos.next]
  queued_le := log.queued_le
  queued := log.queued

/-- LatchRise closes a frame of which every byte is sent (R160). -/
theorem LogAgrees.rise (log : LogAgrees n wire false bits n []) (length : bits.length = n) :
    LogAgrees n (wire ++ [.latchRise]) true bits 0 [] where
  position := by
    rw [wirePos_append, log.position]
    simp [WirePos.next, length]
  queued_le := Nat.le_refl 0
  queued := rfl

/-- CHAN_MOVE takes the next byte of the buffer to the tail of the queue (R164). -/
theorem LogAgrees.push (log : LogAgrees n wire latch bits moved queue) {b : Byte} (read : bits[moved]? = some b) :
    LogAgrees n wire latch bits (moved + 1) (queue ++ [b]) := by
  obtain ⟨position, le, queued⟩ := log
  obtain ⟨inside, -⟩ := List.getElem?_eq_some_iff.1 read
  have sent : moved + 1 - (queue ++ [b]).length = moved - queue.length := by
    rw [List.length_append, List.length_singleton, Nat.add_sub_add_right]
  have within : moved - queue.length ≤ (bits.take moved).length := by
    rw [List.length_take]
    omega
  refine ⟨by rwa [sent], by simpa using le, ?_⟩
  rw [sent, List.take_add_one, read, Option.toList_some, List.drop_append_of_le_length within, queued]

/-- The head of the queue is the first byte of the buffer that is not sent. -/
theorem LogAgrees.head_unsent {b : Byte} {rest : List Byte} (log : LogAgrees n wire latch bits moved (b :: rest)) :
    bits[moved - (b :: rest).length]? = some b := by
  have head := congrArg (·[0]?) log.queued
  have le := log.queued_le
  simp only [List.length_cons] at le
  simpa [List.getElem?_drop, List.getElem?_take, show 0 < moved by omega] using head

/-- What is left to send once the head of the queue is sent. -/
theorem LogAgrees.sent_succ {b : Byte} {rest : List Byte} (log : LogAgrees n wire latch bits moved (b :: rest)) :
    moved - rest.length = moved - (b :: rest).length + 1 := by
  have le := log.queued_le
  rw [List.length_cons] at le ⊢
  omega

/-- PORT_SHIFT puts the head of the queue on the wire, inside the frame (R167, R219). -/
theorem LogAgrees.shift {b : Byte} {rest : List Byte} (log : LogAgrees n wire false bits moved (b :: rest))
    (length : bits.length = n) : LogAgrees n (wire ++ [.byte b]) false bits moved rest where
  position := by
    obtain ⟨inside, -⟩ := List.getElem?_eq_some_iff.1 log.head_unsent
    rw [wirePos_append, log.position, log.sent_succ, List.take_add_one, log.head_unsent]
    simpa [WirePos.next, ← length] using inside
  queued_le := Nat.le_of_succ_le log.queued_le
  queued := by rw [log.sent_succ, ← List.tail_drop, log.queued, List.tail_cons]

end Agreement

section Moved
variable {s : State}

theorem moved_idle (phase : s.phase = .idle) : s.moved = 0 := by
  cases sub : s.xsub <;> simp [State.moved, phase, sub]

theorem moved_render (phase : s.phase = .render) : s.moved = 0 := by
  cases sub : s.xsub <;> simp [State.moved, phase, sub]

theorem moved_dmaWait (phase : s.phase = .xmit) (sub : s.xsub = .dmaWait) : s.moved = s.chan.idx := by
  simp only [State.moved, phase, sub]

theorem moved_flushWait (phase : s.phase = .xmit) (sub : s.xsub = .flushWait) : s.moved = s.cfg.n := by
  simp only [State.moved, phase, sub]

theorem moved_fault (phase : s.phase = .fault) : s.moved = if s.cause = .flushFail then s.cfg.n else 0 := by
  cases sub : s.xsub <;> simp only [State.moved, phase, sub]

end Moved

/-! Each move keeps the log's part of the invariant. -/

theorem take_keeps_wireInv {s : State} (wireInv : s.WireInv) (ready : s.phase = .idle) : (take s).WireInv := by
  obtain ⟨log, -⟩ := (wireInv_iff s).1 wireInv
  rw [moved_idle ready] at log
  exact LogAgrees.wireInv log (moved_render rfl) nofun

/-- A mutation writes nothing that the log's part speaks of (R125). -/
theorem execMove_keeps_wireInv {s t : State} (wireInv : s.WireInv) (move : ExecMove s t) : t.WireInv := by
  cases move with
  | held | on | points | data => exact wireInv
  | taken ready => exact take_keeps_wireInv wireInv ready

/-- A reserved opcode faults between frames (R88, R182). -/
theorem illegal_keeps_wireInv {s : State} (inv : s.Inv) (wireInv : s.WireInv) (ready : s.phase = .idle) :
    (raise .illegalCmd s).WireInv := by
  obtain ⟨-, location⟩ := (inv_iff_atLocation s).1 inv
  obtain ⟨-, high, -⟩ := (atLocation_idle ready).1 location
  obtain ⟨log, -⟩ := (wireInv_iff s).1 wireInv
  rw [moved_idle ready] at log
  exact LogAgrees.wireInv log (moved_fault rfl) (by simp [high])

/-- The render step writes the buffer while nothing of it has been moved (R131). -/
theorem rendered_keeps_wireInv {s : State} (wireInv : s.WireInv) (rendering : s.phase = .render) (acc : Accel)
    (bits : List Byte) (ri : Nat) : State.WireInv { s with acc := acc, bits := bits, ri := ri } := by
  obtain ⟨log, faulted⟩ := (wireInv_iff s).1 wireInv
  rw [moved_render rendering] at log
  exact LogAgrees.wireInv (log.rewrite bits) (moved_render rendering) faulted

theorem started_keeps_wireInv {s : State} (inv : s.Inv) (wireInv : s.WireInv) (rendering : s.phase = .render) :
    (xferStart (latchLow s)).WireInv := by
  obtain ⟨-, location⟩ := (inv_iff_atLocation s).1 inv
  obtain ⟨-, high, -⟩ := (atLocation_render rendering).1 location
  obtain ⟨log, -⟩ := (wireInv_iff s).1 wireInv
  rw [moved_render rendering, high] at log
  exact LogAgrees.wireInv log.fall (moved_dmaWait rfl rfl) nofun

/-- The transfer is seen to be done when all N bytes are moved (R157). -/
theorem waitChan_keeps_wireInv {s : State} (inv : s.Inv) (wireInv : s.WireInv) (sending : s.phase = .xmit)
    (sub : s.xsub = .dmaWait) (finished : s.chan.done = true) : (waitChan s).WireInv := by
  obtain ⟨-, location⟩ := (inv_iff_atLocation s).1 inv
  obtain ⟨-, -, -, -, counted, -⟩ := (atLocation_dmaWait sending sub).1 location
  obtain ⟨log, faulted⟩ := (wireInv_iff s).1 wireInv
  rw [moved_dmaWait sending sub, counted.1 finished] at log
  exact LogAgrees.wireInv log (moved_flushWait sending rfl) faulted

/-- A flush failure leaves the frame as it stands, with the latch low (R188). -/
theorem flushFail_keeps_wireInv {s : State} (inv : s.Inv) (wireInv : s.WireInv) (sending : s.phase = .xmit)
    (sub : s.xsub = .flushWait) : (raise .flushFail s).WireInv := by
  obtain ⟨-, location⟩ := (inv_iff_atLocation s).1 inv
  obtain ⟨-, low, -⟩ := (atLocation_flushWait sending sub).1 location
  obtain ⟨log, -⟩ := (wireInv_iff s).1 wireInv
  rw [moved_flushWait sending sub] at log
  exact LogAgrees.wireInv log (moved_fault rfl) (by simp [low])

theorem latchHighReturn_keeps_wireInv {s : State} (inv : s.Inv) (wireInv : s.WireInv) (sending : s.phase = .xmit)
    (sub : s.xsub = .flushWait) (empty : s.portQ = []) : (latchHighReturn s).WireInv := by
  obtain ⟨⟨⟨-, -, -, length⟩, -, -, -, -⟩, location⟩ := (inv_iff_atLocation s).1 inv
  obtain ⟨-, low, -⟩ := (atLocation_flushWait sending sub).1 location
  obtain ⟨log, -⟩ := (wireInv_iff s).1 wireInv
  rw [moved_flushWait sending sub, low, empty] at log
  have risen := log.rise length
  rw [← empty] at risen
  exact LogAgrees.wireInv risen (moved_idle rfl) nofun

theorem configured_of_inv {s : State} (inv : s.Inv) : s.acc.cfgDone = true := by
  obtain ⟨⟨-, -, ⟨configured, -⟩, -, -⟩, -⟩ := (inv_iff_atLocation s).1 inv
  exact configured

theorem ctrlMove_keeps_wireInv {flushErr : Bool} {s t : State} (inv : s.Inv) (wireInv : s.WireInv)
    (move : CtrlMove flushErr s t) : t.WireInv := by
  cases move with
  | noWord | pastTheEnd | chanAwaited | flushAwaited | stopped => exact wireInv
  | command _ _ rest _ _ _ _ done => exact execMove_keeps_wireInv (s := { s with pending := rest }) wireInv done
  | illegal ready _ rest => exact illegal_keeps_wireInv (s := { s with pending := rest }) inv wireInv ready
  | rendered rendering => exact rendered_keeps_wireInv wireInv rendering _ _ _
  | unconfigured _ _ bad => exact absurd (configured_of_inv inv) (by simp [bad])
  | started rendering => exact started_keeps_wireInv inv wireInv rendering
  | chanSeen sending sub finished => exact waitChan_keeps_wireInv inv wireInv sending sub finished
  | flushFailed sending sub => exact flushFail_keeps_wireInv inv wireInv sending sub
  | flushed sending sub _ empty => exact latchHighReturn_keeps_wireInv inv wireInv sending sub empty

theorem chanMove_keeps_wireInv {s t : State} (inv : s.Inv) (wireInv : s.WireInv) (moves : chanMove s = .next t) :
    t.WireInv := by
  obtain ⟨-, rfl⟩ | ⟨b, active, -, -, -, read, rfl⟩ := chanMove_next moves
  · exact wireInv
  · obtain ⟨-, -, ⟨running, -⟩, -⟩ := inv
    obtain ⟨sending, sub⟩ := running active
    obtain ⟨log, faulted⟩ := (wireInv_iff s).1 wireInv
    rw [moved_dmaWait sending sub] at log
    exact LogAgrees.wireInv (log.push read) (moved_dmaWait sending sub) faulted

/-- Bytes are queued only while the latch is low: elsewhere nothing has been moved (R219). -/
theorem latch_low_of_queued {s : State} (inv : s.Inv) (wireInv : s.WireInv) (queued : s.portQ ≠ []) :
    s.latch = false := by
  obtain ⟨-, location⟩ := (inv_iff_atLocation s).1 inv
  obtain ⟨log, faulted⟩ := (wireInv_iff s).1 wireInv
  have moved : s.moved ≠ 0 := by
    have le := log.queued_le
    have pos := List.length_pos_of_ne_nil queued
    omega
  cases phase : s.phase with
  | idle => exact absurd (moved_idle phase) moved
  | render => exact absurd (moved_render phase) moved
  | xmit =>
    cases sub : s.xsub with
    | dmaWait =>
      obtain ⟨-, low, -⟩ := (atLocation_dmaWait phase sub).1 location
      exact low
    | flushWait =>
      obtain ⟨-, low, -⟩ := (atLocation_flushWait phase sub).1 location
      exact low
  | fault =>
    rw [moved_fault phase] at moved
    exact (faulted phase).2 (by_contra fun other => moved (if_neg other))

theorem portShift_keeps_wireInv {s : State} (inv : s.Inv) (wireInv : s.WireInv) : (portShift s).WireInv := by
  obtain ⟨-, same⟩ | ⟨b, rest, queued, same⟩ := portShift_cases s <;> rw [same]
  · exact wireInv
  · have low : s.latch = false := latch_low_of_queued inv wireInv (by simp [queued])
    obtain ⟨⟨⟨-, -, -, length⟩, -, -, -, -⟩, -⟩ := (inv_iff_atLocation s).1 inv
    obtain ⟨log, faulted⟩ := (wireInv_iff s).1 wireInv
    rw [queued, low] at log
    have shifted := log.shift length
    rw [← low] at shifted
    exact (wireInv_iff _).2 ⟨shifted, faulted⟩

end Sys2Proof.Machine

namespace Sys2Proof.Machine
/-! The buffer against the logical state (42_render.md R134, R136): a render step writes the closed form of its two
digits, and nothing else in the block writes what it depends on. -/

theorem lowNibble_toNat (b : Byte) : (lowNibble b).toNat = (b &&& 0x0F).toNat := by
  rw [lowNibble, BitVec.extractLsb'_toNat, BitVec.toNat_and, Nat.shiftRight_zero]
  exact (Nat.and_two_pow_sub_one_eq_mod b.toNat 4).symm

theorem highNibble_toNat (b : Byte) : (highNibble b).toNat = ((b >>> 4) &&& 0x0F).toNat := by
  rw [← lowNibble_toNat]
  simp [lowNibble, highNibble]

/-- The two nibbles of a data byte are the values of its two digits (R58). -/
theorem nibbleOf_low {data : List Byte} {i : Nat} {b : Byte} (read : data[i]? = some b) :
    nibbleOf data (2 * i) = some (lowNibble b) := by
  simp [nibbleOf, read]

theorem nibbleOf_high {data : List Byte} {i : Nat} {b : Byte} (read : data[i]? = some b) :
    nibbleOf data (2 * i + 1) = some (highNibble b) := by
  have half : (2 * i + 1) / 2 = i := by omega
  simp [nibbleOf, half, read]

/-- What a render step computes for a digit is its closed form (R133, R134). -/
theorem digit_eq_digitByte {s : State} {p : Nat} {idx x : Byte} {nibble : BitVec 4}
    (value : nibbleOf s.data p = some nibble) (index : nibble.toNat = idx.toNat) (computed : digit s p idx = some x) :
    x = digitByte s.cfg s.on s.points s.data p := by
  unfold digit at computed
  split at computed
  · rename_i point lit pointRead
    obtain ⟨entry, read, rfl⟩ := Option.map_eq_some_iff.1 computed
    simp [digitByte, List.getD_eq_getElem?_getD, lit, pointRead, value, tableRead, index, read]
  · rename_i point dark pointRead
    cases computed
    simp [digitByte, List.getD_eq_getElem?_getD, dark, pointRead]
  · cases computed

theorem rendered_length (s : State) : s.rendered.length = s.cfg.n := by
  simp [State.rendered, render]

theorem rendered_getElem? {s : State} {p : Nat} (inside : p < s.cfg.n) :
    s.rendered[p]? = some (digitByte s.cfg s.on s.points s.data p) := by
  simp [State.rendered, render, inside]

/-- Two elements more of a list's beginning. -/
theorem take_add_two {α : Type} {l : List α} {i : Nat} {x y : α} (first : l[i]? = some x)
    (second : l[i + 1]? = some y) : l.take (i + 2) = l.take i ++ [x, y] := by
  rw [List.take_add_one, List.take_add_one, first, second]
  simp

/-- A render step extends the rendered part of the buffer by its two digits (R131, R136). -/
theorem take_rendered_succ {s : State} {b x y : Byte} (shaped : s.Shaped) (configured : s.acc.Configured)
    (more : s.ri < s.cfg.dlen) (read : s.data[s.ri]? = some b)
    (low : digit s (2 * s.ri) (laneResult b s.acc.lane0) = some x)
    (high : digit s (2 * s.ri + 1) (laneResult b s.acc.lane1) = some y)
    (before : s.bits.take (2 * s.ri) = s.rendered.take (2 * s.ri)) :
    ((s.bits.set (2 * s.ri) x).set (2 * s.ri + 1) y).take (2 * (s.ri + 1)) = s.rendered.take (2 * (s.ri + 1)) := by
  obtain ⟨-, -, -, length⟩ := shaped
  obtain ⟨-, lane0, lane1, -⟩ := configured
  have twice := s.cfg.two_mul_dlen
  rw [lane0, laneResult_low] at low
  rw [lane1, laneResult_high] at high
  have renderedLow : s.rendered[2 * s.ri]? = some x := by
    rw [rendered_getElem? (by omega), digit_eq_digitByte (nibbleOf_low read) (lowNibble_toNat b) low]
  have renderedHigh : s.rendered[2 * s.ri + 1]? = some y := by
    rw [rendered_getElem? (by omega), digit_eq_digitByte (nibbleOf_high read) (highNibble_toNat b) high]
  rw [Nat.mul_add, Nat.mul_one, take_add_two renderedLow renderedHigh, ← before,
    take_add_two (x := x) (y := y) (by grind) (by grind)]
  simp [List.take_set_of_le]

/-- The buffer's part of the invariant reads nothing of the transfer and of the inputs. -/
theorem State.SameButTransfer.keeps_renderInv {s t : State} (same : s.SameButTransfer t) (renderInv : s.RenderInv) :
    t.RenderInv := by
  obtain ⟨rendering, sending⟩ := renderInv
  have rendered : t.rendered = s.rendered := by
    rw [State.rendered, State.rendered, same.cfg, same.on, same.points, same.data]
  simp only [State.RenderInv, same.phase, same.bits, same.ri, same.data, same.acc, same.cfg, rendered]
  exact ⟨rendering, sending⟩

/-- The buffer's part asks for nothing outside `RENDER` and `XMIT`. -/
theorem renderInv_of_idle {s : State} (ready : s.phase = .idle) : s.RenderInv :=
  ⟨fun rendering => absurd rendering (by simp [ready]), fun sending => absurd sending (by simp [ready])⟩

/-- At the start of a render pass no digit is rendered (R150). -/
theorem take_renderInv (s : State) : (take s).RenderInv :=
  ⟨fun _ => ⟨rfl, nofun⟩, nofun⟩

theorem execMove_keeps_renderInv {s t : State} (ready : s.phase = .idle) (move : ExecMove s t) : t.RenderInv := by
  cases move with
  | held busy => exact absurd ready busy
  | on | points | data => exact renderInv_of_idle ready
  | taken => exact take_renderInv s

theorem started_keeps_renderInv {s : State} (inv : s.Inv) (renderInv : s.RenderInv) (rendering : s.phase = .render)
    (complete : s.ri = s.cfg.dlen) : (xferStart (latchLow s)).RenderInv := by
  obtain ⟨⟨⟨-, -, -, length⟩, -, -, -, -⟩, -⟩ := (inv_iff_atLocation s).1 inv
  obtain ⟨done, last⟩ := renderInv.1 rendering
  rw [complete, s.cfg.two_mul_dlen, List.take_of_length_le length.le,
    List.take_of_length_le (rendered_length s).le] at done
  rw [complete] at last
  exact ⟨nofun, fun _ => ⟨done, last s.cfg.dlen_pos⟩⟩

theorem ctrlMove_keeps_renderInv {flushErr : Bool} {s t : State} (inv : s.Inv) (renderInv : s.RenderInv)
    (move : CtrlMove flushErr s t) : t.RenderInv := by
  obtain ⟨⟨shaped, -, configured, -, -⟩, -⟩ := (inv_iff_atLocation s).1 inv
  cases move with
  | noWord | pastTheEnd | chanAwaited | flushAwaited | stopped => exact renderInv
  | command ready _ rest _ _ _ _ done => exact execMove_keeps_renderInv (s := { s with pending := rest }) ready done
  | illegal | unconfigured | flushFailed | flushed => exact ⟨nofun, nofun⟩
  | rendered rendering more b x y _ _ read low high =>
    obtain ⟨before, -⟩ := renderInv.1 rendering
    have after := take_rendered_succ shaped configured more read low high before
    exact ⟨fun _ => ⟨after, fun _ => read⟩, fun sending => absurd sending (by simp [rendering])⟩
  | started rendering complete => exact started_keeps_renderInv inv renderInv rendering complete
  | chanSeen => exact renderInv

/-! All invariants together, turn by turn. -/

theorem runTurn_keeps_fullInv {turn : Turn} {s t : State} (full : s.FullInv) (moves : runTurn turn s = .next t) :
    t.FullInv := by
  obtain ⟨inv, wireInv, renderInv⟩ := full
  cases turn with
  | host w =>
    cases moves
    exact ⟨inv, wireInv, renderInv⟩
  | ctrl flushErr =>
    have move := ctrlTurn_move moves
    exact ⟨ctrlMove_keeps_inv inv move, ctrlMove_keeps_wireInv inv wireInv move,
      ctrlMove_keeps_renderInv inv renderInv move⟩
  | chan =>
    exact ⟨chanMove_keeps_inv inv moves, chanMove_keeps_wireInv inv wireInv moves,
      (chanMove_same moves).keeps_renderInv renderInv⟩
  | port =>
    cases moves
    exact ⟨portShift_keeps_inv inv, portShift_keeps_wireInv inv wireInv, (portShift_same s).keeps_renderInv renderInv⟩

/-- No invariant speaks of the inputs. -/
theorem spendTurn_fullInv (s : State) : s.spendTurn.FullInv ↔ s.FullInv := by
  unfold State.spendTurn
  split <;> exact Iff.rfl

/-- Settles O45: using up the turn keeps the invariants, and so does the turn. -/
theorem everyStepKeepsTheLogAndTheBuffer : Obligations.EveryStepKeepsTheLogAndTheBuffer :=
  fun s _ full stepped => runTurn_keeps_fullInv ((spendTurn_fullInv s).2 full) stepped

end Sys2Proof.Machine

namespace Sys2Proof.Machine
/-! What is still owed while a SHOW is in progress (43_transfer.md R147): the events it has yet to put on the outputs, and
the steps it has yet to take. Each step of the SHOW pays its part. -/

/-- The events that the SHOW in progress has still to put on the outputs; none when no SHOW is. -/
def State.owed (s : State) : List Event :=
  match s.phase with
  | .render => frame s.rendered
  | .xmit => (s.bits.drop s.sentCount).map .byte ++ [.latchRise]
  | _ => []

/-- The steps that the SHOW in progress has still to take: render steps and the start, moves, shifts, WAIT_CHAN and the
return. -/
def State.work (s : State) : Nat :=
  match s.phase, s.xsub with
  | .render, _ => s.cfg.dlen - s.ri + 2 * s.cfg.n + 3
  | .xmit, .dmaWait => 2 * (s.cfg.n - s.chan.idx) + s.portQ.length + 2
  | .xmit, .flushWait => s.portQ.length + 1
  | _, _ => 0

section Owed
variable {s : State}

theorem owed_idle (phase : s.phase = .idle) : s.owed = [] := by
  simp only [State.owed, phase]

theorem owed_render (phase : s.phase = .render) : s.owed = frame s.rendered := by
  simp only [State.owed, phase]

theorem owed_xmit (phase : s.phase = .xmit) : s.owed = (s.bits.drop s.sentCount).map .byte ++ [.latchRise] := by
  simp only [State.owed, phase]

theorem work_idle (phase : s.phase = .idle) : s.work = 0 := by
  cases sub : s.xsub <;> simp only [State.work, phase, sub]

theorem work_render (phase : s.phase = .render) : s.work = s.cfg.dlen - s.ri + 2 * s.cfg.n + 3 := by
  cases sub : s.xsub <;> simp only [State.work, phase, sub]

theorem work_dmaWait (phase : s.phase = .xmit) (sub : s.xsub = .dmaWait) :
    s.work = 2 * (s.cfg.n - s.chan.idx) + s.portQ.length + 2 := by
  simp only [State.work, phase, sub]

theorem work_flushWait (phase : s.phase = .xmit) (sub : s.xsub = .flushWait) : s.work = s.portQ.length + 1 := by
  simp only [State.work, phase, sub]

end Owed

/-- A step of the SHOW in progress: it pays some of the work, and the events that it puts on the outputs are the first
of those owed. -/
structure State.Performs (s t : State) : Prop where
  cfg : t.cfg = s.cfg
  logical : t.logical = s.logical
  cause : t.cause = s.cause
  pending : t.pending = s.pending
  output : t.wire ++ t.owed = s.wire ++ s.owed
  work : t.work < s.work

theorem State.SameButTransfer.logical {s t : State} (same : s.SameButTransfer t) : t.logical = s.logical := by
  rw [State.logical, State.logical, same.on, same.points, same.data]

/-- The render step (R132): nothing of the frame is out, and the frame is the same. -/
theorem rendered_performs {s : State} (rendering : s.phase = .render) (more : s.ri < s.cfg.dlen) (acc : Accel)
    (bits : List Byte) : s.Performs { s with acc := acc, bits := bits, ri := s.ri + 1 } where
  cfg := rfl
  logical := rfl
  cause := rfl
  pending := rfl
  output := congrArg (s.wire ++ ·) (Eq.trans (owed_render rendering) (owed_render rendering).symm)
  work := by
    refine lt_of_eq_of_lt (work_render rendering) ?_
    rw [work_render rendering]
    dsimp only
    omega

/-- LATCH_LOW and XFER_START (R153, R154): the fall of the latch is out, and the buffer holds the bytes of the frame. -/
theorem started_performs {s : State} (inv : s.Inv) (renderInv : s.RenderInv) (rendering : s.phase = .render)
    (complete : s.ri = s.cfg.dlen) : s.Performs (xferStart (latchLow s)) where
  cfg := rfl
  logical := rfl
  cause := rfl
  pending := rfl
  output := by
    obtain ⟨bits, -⟩ := (started_keeps_renderInv inv renderInv rendering complete).2 rfl
    have unsent : (xferStart (latchLow s)).sentCount = 0 := by
      rw [State.sentCount, moved_dmaWait rfl rfl, xferStart_chan, Nat.zero_sub]
    rw [owed_render rendering, owed_xmit rfl, unsent, bits, List.drop_zero]
    simp [frame, State.rendered]
  work := by
    obtain ⟨-, location⟩ := (inv_iff_atLocation s).1 inv
    obtain ⟨-, -, -, empty, -⟩ := (atLocation_render rendering).1 location
    rw [work_render rendering, work_dmaWait rfl rfl, complete]
    simp [empty]

/-- WAIT_CHAN (R156, R157): no event, and nothing is left to move. -/
theorem waitChan_performs {s : State} (inv : s.Inv) (sending : s.phase = .xmit) (sub : s.xsub = .dmaWait)
    (finished : s.chan.done = true) : s.Performs (waitChan s) where
  cfg := rfl
  logical := rfl
  cause := rfl
  pending := rfl
  output := by
    obtain ⟨-, location⟩ := (inv_iff_atLocation s).1 inv
    obtain ⟨-, -, -, -, counted, -⟩ := (atLocation_dmaWait sending sub).1 location
    have sent : (waitChan s).sentCount = s.sentCount := by
      rw [State.sentCount, State.sentCount, moved_dmaWait sending sub, counted.1 finished,
        moved_flushWait (s := waitChan s) sending rfl, waitChan_cfg, waitChan_portQ]
    rw [owed_xmit sending, owed_xmit (s := waitChan s) sending, sent, waitChan_wire, waitChan_bits]
  work := by
    rw [work_dmaWait sending sub, work_flushWait (s := waitChan s) sending rfl, waitChan_portQ]
    omega

/-- LATCH_HIGH_RETURN (R160): every byte is out, and the rise of the latch ends the frame. -/
theorem latchHighReturn_performs {s : State} (inv : s.Inv) (sending : s.phase = .xmit) (sub : s.xsub = .flushWait)
    (empty : s.portQ = []) : s.Performs (latchHighReturn s) where
  cfg := rfl
  logical := rfl
  cause := rfl
  pending := rfl
  output := by
    obtain ⟨⟨⟨-, -, -, length⟩, -, -, -, -⟩, -⟩ := (inv_iff_atLocation s).1 inv
    have sent : s.sentCount = s.bits.length := by
      rw [State.sentCount, moved_flushWait sending sub, empty, length, List.length_nil, Nat.sub_zero]
    rw [owed_xmit sending, owed_idle rfl, sent, List.drop_length]
    simp
  work := by
    rw [work_flushWait sending sub, work_idle rfl]
    omega

/-- CHAN_MOVE (R164): no event, and a byte that was to be moved and shifted is now to be shifted. -/
theorem chanMove_performs {s t : State} (inv : s.Inv) (ready : s.enabled .chan = true)
    (moves : chanMove s = .next t) : s.Performs t := by
  have same := chanMove_same moves
  obtain ⟨off, -⟩ | ⟨b, active, -, more, -, -, moved⟩ := chanMove_next moves
  · exact absurd ready (by simp [State.enabled, off])
  · obtain ⟨-, -, ⟨running, -⟩, -⟩ := inv
    obtain ⟨sending, sub⟩ := running active
    have idx : t.chan.idx = s.chan.idx + 1 := by rw [moved]
    have queue : t.portQ.length = s.portQ.length + 1 := by rw [moved, List.length_append, List.length_singleton]
    have wire : t.wire = s.wire := by rw [moved]
    have sent : t.sentCount = s.sentCount := by
      rw [State.sentCount, State.sentCount, moved_dmaWait sending sub,
        moved_dmaWait (same.phase.trans sending) (same.xsub.trans sub), idx, queue, Nat.add_sub_add_right]
    refine ⟨same.cfg, same.logical, same.cause, chanMove_pending moves, ?_, ?_⟩
    · rw [owed_xmit sending, owed_xmit (same.phase.trans sending), sent, wire, same.bits]
    · rw [work_dmaWait sending sub, work_dmaWait (same.phase.trans sending) (same.xsub.trans sub), idx, queue, same.cfg]
      omega

/-- Without a fault, bytes are queued in a transfer only (R219). -/
theorem sending_of_queued {s : State} (inv : s.Inv) (wireInv : s.WireInv) (safe : s.safe) (queued : s.portQ ≠ []) :
    s.phase = .xmit := by
  have low : s.latch = false := latch_low_of_queued inv wireInv queued
  obtain ⟨-, ⟨-, idle, render, -, -, -, -, -, faultIff, -⟩, -, -⟩ := inv
  cases phase : s.phase with
  | idle =>
    obtain ⟨-, high, -⟩ := idle phase
    exact absurd high (by simp [low])
  | render =>
    obtain ⟨-, high, -⟩ := render phase
    exact absurd high (by simp [low])
  | xmit => rfl
  | fault => exact absurd safe (faultIff.1 phase)

/-- PORT_SHIFT (R167): the head of the queue is the next byte owed. -/
theorem portShift_performs {s : State} (inv : s.Inv) (wireInv : s.WireInv) (safe : s.safe)
    (ready : s.enabled .port = true) : s.Performs (portShift s) := by
  have same := portShift_same s
  obtain ⟨empty, -⟩ | ⟨b, rest, queued, moved⟩ := portShift_cases s
  · exact absurd empty ((enabled_port s).1 ready)
  · have sending : s.phase = .xmit := sending_of_queued inv wireInv safe ((enabled_port s).1 ready)
    have sendingStill : (portShift s).phase = .xmit := same.phase.trans sending
    obtain ⟨log, -⟩ := (wireInv_iff s).1 wireInv
    rw [queued] at log
    have sent : (portShift s).sentCount = s.sentCount + 1 := by
      have count : (portShift s).moved = s.moved := by rw [moved]; rfl
      rw [State.sentCount, State.sentCount, count, queued, ← log.sent_succ, moved]
    have unsent : s.bits.drop s.sentCount = b :: s.bits.drop (s.sentCount + 1) := by
      have head := log.head_unsent
      rw [← queued] at head
      obtain ⟨inside, rfl⟩ := List.getElem?_eq_some_iff.1 head
      exact List.drop_eq_getElem_cons inside
    refine ⟨same.cfg, same.logical, same.cause, portShift_pending s, ?_, ?_⟩
    · rw [owed_xmit sending, owed_xmit sendingStill, sent, same.bits, unsent, moved]
      simp
    · have shorter : (portShift s).portQ.length < s.portQ.length := by simp [moved, queued]
      cases sub : s.xsub with
      | dmaWait =>
        have chan : (portShift s).chan = s.chan := by rw [moved]
        rw [work_dmaWait sending sub, work_dmaWait sendingStill (same.xsub.trans sub), same.cfg, chan]
        omega
      | flushWait =>
        rw [work_flushWait sending sub, work_flushWait sendingStill (same.xsub.trans sub)]
        omega

end Sys2Proof.Machine

namespace Sys2Proof.Machine
/-! The machine against the sequential display (43_transfer.md R161, R174): what is still to be done of a sequence of
commands, and that each turn of an agent with an enabled step does a part of it. -/

/-- The state with the logical state `l`. -/
def State.withLogical (s : State) (l : Logical) : State := { s with on := l.on, points := l.points, data := l.data }

/-- A mutation accepted in `IDLE` makes of the logical state what it makes of the sequential display's (R125). -/
theorem exec_mutation {i : Instr} {s t : State} (ready : s.phase = .idle) (mutation : i ≠ .showFrame)
    (runs : exec i s = .next t) : t = s.withLogical (s.logical.after s.cfg i) := by
  cases i with
  | allOn | allOff =>
    rw [exec] at runs
    obtain ⟨-, rfl⟩ | ⟨busy, -⟩ := accept_next runs
    · rfl
    · exact absurd ready busy
  | on | dPoints | values =>
    rw [exec] at runs
    obtain ⟨-, -, rfl⟩ | ⟨busy, -⟩ := acceptSized_next runs
    · rfl
    · exact absurd ready busy
  | showFrame => exact absurd rfl mutation

theorem exec_show {s t : State} (ready : s.phase = .idle) (runs : exec .showFrame s = .next t) : t = take s := by
  obtain ⟨-, rfl⟩ | ⟨busy, -⟩ := accept_next runs
  · rfl
  · exact absurd ready busy

theorem framesOf_mutation {i : Instr} (mutation : i ≠ .showFrame) (c : Config) (rest : List Instr) (l : Logical) :
    framesOf c (i :: rest) l = framesOf c rest (l.after c i) := by
  cases i with
  | showFrame => exact absurd rfl mutation
  | _ => rfl

/-- Where the machine is in a sequence of commands: `commands` are yet to be accepted, the words `since` were offered
after theirs, and no fault has occurred. -/
structure State.Agenda (s : State) (commands : List Instr) (since : List Nat) : Prop where
  full : s.FullInv
  safe : s.safe
  offered : ∃ words, s.pending = words ++ since ∧ words.map (decode s.cfg) = commands.map .command

/-- From `s` with `commands` to be accepted, the machine has come to `t` with `left`: the logical state and the log that
all of it leads to are the same. -/
structure Advance (s : State) (commands : List Instr) (t : State) (left : List Instr) : Prop where
  cfg : t.cfg = s.cfg
  logical : left.foldl (Logical.after t.cfg) t.logical = commands.foldl (Logical.after s.cfg) s.logical
  log : t.wire ++ t.owed ++ framesOf t.cfg left t.logical = s.wire ++ s.owed ++ framesOf s.cfg commands s.logical

/-- The steps that are left: of the SHOW in progress, and at most those of a SHOW for each command. -/
def State.workLeft (s : State) (commands : List Instr) : Nat := s.work + commands.length * showSteps s.cfg

theorem Advance.refl (s : State) (commands : List Instr) : Advance s commands s commands := ⟨rfl, rfl, rfl⟩

theorem Advance.trans {s t u : State} {commands left rest : List Instr} (first : Advance s commands t left)
    (second : Advance t left u rest) : Advance s commands u rest where
  cfg := second.cfg.trans first.cfg
  logical := second.logical.trans first.logical
  log := second.log.trans first.log

/-- A step of the SHOW in progress accepts no command. -/
theorem State.Performs.advance {s t : State} (performs : s.Performs t) (commands : List Instr) :
    Advance s commands t commands where
  cfg := performs.cfg
  logical := by rw [performs.cfg, performs.logical]
  log := by rw [performs.output, performs.cfg, performs.logical]

theorem State.Performs.workLeft {s t : State} (performs : s.Performs t) (commands : List Instr) :
    t.workLeft commands < s.workLeft commands := by
  rw [State.workLeft, State.workLeft, performs.cfg]
  exact Nat.add_lt_add_right performs.work _

/-- The acceptance of a command is its step of the sequential display: a mutation is done, a SHOW's frame is owed. -/
theorem exec_advances {i : Instr} {s t : State} (ready : s.phase = .idle) (runs : exec i s = .next t)
    (left : List Instr) :
    Advance s (i :: left) t left ∧ t.workLeft left < s.workLeft (i :: left) ∧ t.cause = s.cause ∧
      t.pending = s.pending := by
  have cost : s.workLeft (i :: left) = left.length * showSteps s.cfg + showSteps s.cfg := by
    rw [State.workLeft, work_idle ready, List.length_cons, Nat.succ_mul, Nat.zero_add]
  obtain rfl | mutation := eq_or_ne i .showFrame
  · obtain rfl := exec_show ready runs
    refine ⟨⟨rfl, rfl, ?_⟩, ?_, rfl, rfl⟩
    · rw [owed_idle ready, owed_render rfl, List.append_nil, List.append_assoc]
      rfl
    · rw [cost, State.workLeft, work_render rfl, take_cfg, take_ri, showSteps]
      omega
  · obtain rfl := exec_mutation ready mutation runs
    have idle : (s.withLogical (s.logical.after s.cfg i)).phase = .idle := ready
    refine ⟨⟨rfl, rfl, ?_⟩, ?_, rfl, rfl⟩
    · rw [owed_idle ready, owed_idle idle, framesOf_mutation mutation]
      rfl
    · rw [cost, State.workLeft, work_idle idle, State.withLogical, showSteps]
      omega

/-- The turn draws no flush error where one could be drawn (R159). -/
abbrev DrawsNoError (turn : Turn) (s : State) : Prop := s.phase = .xmit → s.xsub = .flushWait → turn ≠ .ctrl true

/-- The turn of an agent that has no enabled step changes nothing. -/
theorem runTurn_of_disabled {turn : Turn} {agent : FairAgent} {s t : State} (agentOf : fairAgentOf turn = some agent)
    (noError : DrawsNoError turn s) (off : ¬ s.enabled agent = true) (moves : runTurn turn s = .next t) : t = s := by
  cases turn with
  | host w => cases agentOf
  | ctrl flushErr =>
    cases agentOf
    rw [enabled_ctrl] at off
    cases ctrlTurn_move moves with
    | noWord | pastTheEnd | chanAwaited | flushAwaited | stopped => rfl
    | command ready _ _ _ offered | illegal ready _ _ _ offered =>
      exact absurd (.inl ⟨ready, by simp [offered]⟩) off
    | rendered rendering more | unconfigured rendering more =>
      exact absurd (.inr (.inl ⟨rendering, more.le⟩)) off
    | started rendering complete => exact absurd (.inr (.inl ⟨rendering, complete.le⟩)) off
    | chanSeen sending sub finished => exact absurd (.inr (.inr (.inl ⟨sending, sub, finished⟩))) off
    | flushed sending sub _ empty => exact absurd (.inr (.inr (.inr ⟨sending, sub, empty⟩))) off
    | flushFailed sending sub err =>
      subst err
      exact absurd rfl (noError sending sub)
  | chan =>
    cases agentOf
    obtain ⟨-, same⟩ | ⟨b, active, running, more, room, -, -⟩ := chanMove_next moves
    · exact same
    · exact absurd ((enabled_chan s).2 ⟨active, running, more, room⟩) off
  | port =>
    cases agentOf
    cases moves
    obtain ⟨-, same⟩ | ⟨b, rest, queued, -⟩ := portShift_cases s
    · exact same
    · exact absurd ((enabled_port s).2 (by simp [queued])) off

/-- The first word of the agenda is the first that is pending, and it decodes to the first command. -/
theorem State.Agenda.head {s : State} {commands : List Instr} {since rest : List Nat} {w : Nat}
    (agenda : s.Agenda commands since) (unfinished : commands ≠ []) (offered : s.pending = w :: rest) :
    ∃ i left words, commands = i :: left ∧ decode s.cfg w = .command i ∧ rest = words ++ since ∧
      words.map (decode s.cfg) = left.map .command := by
  obtain ⟨words, pending, decoded⟩ := agenda.offered
  cases commands with
  | nil => exact absurd rfl unfinished
  | cons i left =>
    cases words with
    | nil => cases decoded
    | cons w' words =>
      rw [offered] at pending
      cases pending
      rw [List.map_cons, List.map_cons, List.cons.injEq] at decoded
      exact ⟨i, left, words, rfl, decoded.1, rfl, decoded.2⟩

/-- A step of the SHOW in progress leaves the agenda as it is. -/
theorem State.Agenda.performs {s t : State} {commands : List Instr} {since : List Nat} (agenda : s.Agenda commands since)
    (full : t.FullInv) (performs : s.Performs t) : t.Agenda commands since where
  full := full
  safe := performs.cause.trans agenda.safe
  offered := by
    rw [performs.pending, performs.cfg]
    exact agenda.offered

/-- From `s` to `t` a part of the agenda is done: fewer steps are left. -/
abbrev State.Proceeds (s : State) (commands : List Instr) (since : List Nat) (t : State) : Prop :=
  ∃ left, t.Agenda left since ∧ Advance s commands t left ∧ t.workLeft left < s.workLeft commands

theorem State.Performs.proceeds {s t : State} {commands : List Instr} {since : List Nat} (performs : s.Performs t)
    (agenda : s.Agenda commands since) (full : t.FullInv) : s.Proceeds commands since t :=
  ⟨commands, agenda.performs full performs, performs.advance commands, performs.workLeft commands⟩

/-- An enabled turn of CTRL accepts the next command or is a step of the SHOW in progress. -/
theorem ctrlMove_proceeds {flushErr : Bool} {s t : State} {commands : List Instr} {since : List Nat}
    (agenda : s.Agenda commands since) (unfinished : s.phase = .idle → commands ≠ [])
    (ready : s.enabled .ctrl = true) (noError : DrawsNoError (.ctrl flushErr) s) (full : t.FullInv)
    (move : CtrlMove flushErr s t) : s.Proceeds commands since t := by
  obtain ⟨inv, wireInv, renderInv⟩ := agenda.full
  rw [enabled_ctrl] at ready
  cases move with
  | command idle w rest i offered decoded t _ runs =>
    obtain ⟨j, left, words, rfl, decodes, rfl, later⟩ := agenda.head (unfinished idle) offered
    rw [decodes] at decoded
    cases decoded
    obtain ⟨advance, less, cause, pending⟩ := exec_advances (s := { s with pending := words ++ since }) idle runs left
    have cfg : t.cfg = s.cfg := advance.cfg
    refine ⟨left, ⟨full, cause.trans agenda.safe, words, pending, by rw [cfg, later]⟩, ?_, less⟩
    exact ⟨advance.cfg, advance.logical, advance.log⟩
  | illegal idle w rest op offered decoded =>
    obtain ⟨i, left, words, -, decodes, -⟩ := agenda.head (unfinished idle) offered
    rw [decodes] at decoded
    cases decoded
  | rendered rendering more => exact (rendered_performs rendering more _ _).proceeds agenda full
  | unconfigured _ _ bad => exact absurd (configured_of_inv inv) (by simp [bad])
  | started rendering complete =>
    exact (started_performs inv renderInv rendering complete).proceeds agenda full
  | chanSeen sending sub finished => exact (waitChan_performs inv sending sub finished).proceeds agenda full
  | flushed sending sub _ empty => exact (latchHighReturn_performs inv sending sub empty).proceeds agenda full
  | flushFailed sending sub err =>
    subst err
    exact absurd rfl (noError sending sub)
  | noWord | pastTheEnd | chanAwaited | flushAwaited | stopped =>
    -- CTRL has no enabled step where it waits.
    grind

/-- The turn of an agent with an enabled step does a part of the agenda. -/
theorem runTurn_proceeds {turn : Turn} {agent : FairAgent} {s t : State} {commands : List Instr} {since : List Nat}
    (agenda : s.Agenda commands since) (unfinished : s.phase = .idle → commands ≠ [])
    (agentOf : fairAgentOf turn = some agent) (ready : s.enabled agent = true) (noError : DrawsNoError turn s)
    (moves : runTurn turn s = .next t) : s.Proceeds commands since t := by
  have full : t.FullInv := runTurn_keeps_fullInv agenda.full moves
  obtain ⟨inv, wireInv, -⟩ := agenda.full
  cases turn with
  | host w => cases agentOf
  | ctrl flushErr =>
    cases agentOf
    exact ctrlMove_proceeds agenda unfinished ready noError full (ctrlTurn_move moves)
  | chan =>
    cases agentOf
    exact (chanMove_performs inv ready moves).proceeds agenda full
  | port =>
    cases agentOf
    cases moves
    exact (portShift_performs inv wireInv agenda.safe ready).proceeds agenda full

/-- The agenda is done: the block is idle and every command has been accepted. -/
abbrev State.Finished (s : State) (commands : List Instr) : Prop := s.phase = .idle ∧ commands = []

/-- With no step left, the agenda is done. -/
theorem State.Agenda.finished {s : State} {commands : List Instr} {since : List Nat} (agenda : s.Agenda commands since)
    (none : s.workLeft commands = 0) : s.Finished commands := by
  have cost : 0 < showSteps s.cfg := by
    rw [showSteps]
    omega
  obtain ⟨work, rest⟩ := Nat.add_eq_zero_iff.1 none
  have left : commands = [] :=
    List.length_eq_zero_iff.1 ((Nat.mul_eq_zero.1 rest).resolve_right cost.ne')
  obtain ⟨-, ⟨-, -, -, -, -, -, -, -, faultIff, -⟩, -, -⟩ := agenda.full.1
  cases phase : s.phase with
  | idle => exact ⟨phase, left⟩
  | render =>
    rw [work_render phase] at work
    cases work
  | xmit =>
    cases sub : s.xsub with
    | dmaWait =>
      rw [work_dmaWait phase sub] at work
      cases work
    | flushWait =>
      rw [work_flushWait phase sub] at work
      cases work
  | fault => exact absurd agenda.safe (faultIff.1 phase)

/-- No deadlock: as long as the agenda is not done, an agent has an enabled step (R173). -/
theorem State.Agenda.some_enabled {s : State} {commands : List Instr} {since : List Nat}
    (agenda : s.Agenda commands since) (unfinished : ¬ s.Finished commands) :
    ∃ agent, s.enabled agent = true := by
  obtain ⟨-, location⟩ := (inv_iff_atLocation s).1 agenda.full.1
  obtain ⟨-, -, room, -⟩ := s.cfg.legal_parts
  cases phase : s.phase with
  | idle =>
    obtain ⟨words, pending, decoded⟩ := agenda.offered
    have offered : s.pending ≠ [] := by
      rintro none
      rw [none, eq_comm, List.append_eq_nil_iff] at pending
      rw [pending.1, eq_comm, List.map_nil, List.map_eq_nil_iff] at decoded
      exact unfinished ⟨phase, decoded⟩
    exact ⟨.ctrl, (enabled_ctrl s).2 (.inl ⟨phase, offered⟩)⟩
  | render =>
    obtain ⟨-, -, -, -, within, -⟩ := (atLocation_render phase).1 location
    exact ⟨.ctrl, (enabled_ctrl s).2 (.inr (.inl ⟨phase, within⟩))⟩
  | xmit =>
    by_cases empty : s.portQ = []
    · cases sub : s.xsub with
      | dmaWait =>
        obtain ⟨-, -, active, within, counted, -⟩ := (atLocation_dmaWait phase sub).1 location
        cases done : s.chan.done with
        | true => exact ⟨.ctrl, (enabled_ctrl s).2 (.inr (.inr (.inl ⟨phase, sub, done⟩)))⟩
        | false =>
          have more : s.chan.idx < s.cfg.n := lt_of_le_of_ne within fun all => by simp [counted.2 all] at done
          exact ⟨.chan, (enabled_chan s).2 ⟨active, done, more, by rwa [empty]⟩⟩
      | flushWait => exact ⟨.ctrl, (enabled_ctrl s).2 (.inr (.inr (.inr ⟨phase, sub, empty⟩)))⟩
    · exact ⟨.port, (enabled_port s).2 empty⟩
  | fault =>
    obtain ⟨-, faulted⟩ := (atLocation_fault phase).1 location
    exact absurd agenda.safe faulted

/-- What has come of the commands once the agenda is done. -/
theorem Advance.done {s t : State} {commands : List Instr} (advance : Advance s commands t []) (idle : t.phase = .idle)
    (start : s.phase = .idle) : t.logical = commands.foldl (Logical.after s.cfg) s.logical ∧
      t.wire = s.wire ++ framesOf s.cfg commands s.logical := by
  have log := advance.log
  rw [owed_idle idle, owed_idle start, framesOf, List.append_nil, List.append_nil, List.append_nil] at log
  exact ⟨advance.logical, log⟩

theorem workLeft_idle {s : State} (ready : s.phase = .idle) (commands : List Instr) :
    s.workLeft commands = commands.length * showSteps s.cfg := by
  rw [State.workLeft, work_idle ready, Nat.zero_add]

end Sys2Proof.Machine

namespace Sys2Proof.Machine
/-! Finite runs in fair rounds (10_state.md R13; log 13). -/

/-- The listed turns take `s` to `t`, one after another. -/
inductive Takes : List Turn → State → State → Prop where
  | nil (s : State) : Takes [] s s
  | cons {turn : Turn} {turns : List Turn} {s t u : State} (first : runTurn turn s = .next t)
      (rest : Takes turns t u) : Takes (turn :: turns) s u

theorem Takes.append {turns later : List Turn} {s t u : State} (first : Takes turns s t) (second : Takes later t u) :
    Takes (turns ++ later) s u := by
  induction first with
  | nil => exact second
  | cons moves _ ih => exact .cons moves (ih second)

/-- The machine takes the turns that are listed. -/
theorem Takes.runFor {turns : List Turn} {s t : State} (takes : Takes turns s t) :
    runFor turns.length { s with sched := turns } = .next { t with sched := [] } := by
  induction takes with
  | nil => rfl
  | cons moves _ ih =>
    rw [List.length_cons, runFor_succ_listed moves]
    exact ih

/-- A turn of CTRL, CHAN or PORT that draws no flush error. -/
abbrev QuietTurn (turn : Turn) : Prop := turn = .ctrl false ∨ turn = .chan ∨ turn = .port

theorem quietTurn_drawsNoError {turn : Turn} (quiet : QuietTurn turn) (s : State) : DrawsNoError turn s := by
  rintro - - rfl
  obtain quiet | quiet | quiet := quiet <;> cases quiet

theorem quietTurn_agent {turn : Turn} (quiet : QuietTurn turn) : ∃ agent, fairAgentOf turn = some agent := by
  obtain rfl | rfl | rfl := quiet <;> exact ⟨_, rfl⟩

/-- With no word offered but those of the commands, an agenda at which an agent is enabled is not done. -/
theorem State.Agenda.unfinished {s : State} {commands : List Instr} (agenda : s.Agenda commands [])
    {agent : FairAgent} (ready : s.enabled agent = true) (idle : s.phase = .idle) : commands ≠ [] := by
  rintro rfl
  obtain ⟨-, location⟩ := (inv_iff_atLocation s).1 agenda.full.1
  obtain ⟨-, -, ⟨inactive, -⟩, empty, -⟩ := (atLocation_idle idle).1 location
  obtain ⟨words, pending, decoded⟩ := agenda.offered
  have none : s.pending = [] := by simpa [List.map_eq_nil_iff.1 decoded] using pending
  cases agent with
  | ctrl => simp [enabled_ctrl, idle, none] at ready
  | chan => simp [enabled_chan, inactive] at ready
  | port => exact (enabled_port s).1 ready empty

/-- Quiet turns keep the agenda, and do a part of it if an agent with an enabled step has one of them: no other agent's
turn takes its step away. -/
theorem quietTurns_advance {turns : List Turn} (quiet : ∀ turn ∈ turns, QuietTurn turn) {s : State}
    {commands : List Instr} (agenda : s.Agenda commands []) :
    ∃ t left, Takes turns s t ∧ t.Agenda left [] ∧ Advance s commands t left ∧
      t.workLeft left ≤ s.workLeft commands ∧
      ∀ agent, s.enabled agent = true → (∃ turn ∈ turns, fairAgentOf turn = some agent) →
        t.workLeft left < s.workLeft commands := by
  induction turns generalizing s commands with
  | nil => exact ⟨s, commands, .nil s, agenda, .refl s commands, Nat.le_refl _, by simp⟩
  | cons turn turns ih =>
    obtain ⟨quietTurn, quietTurns⟩ := List.forall_mem_cons.1 quiet
    obtain ⟨mover, agentOf⟩ := quietTurn_agent quietTurn
    obtain ⟨u, moves⟩ := runTurn_runs agenda.full.1 turn
    by_cases ready : s.enabled mover = true
    · obtain ⟨mid, agendaMid, first, less⟩ :=
        runTurn_proceeds agenda (agenda.unfinished ready) agentOf ready (quietTurn_drawsNoError quietTurn s) moves
      obtain ⟨t, left, takes, agendaEnd, second, le, -⟩ := ih quietTurns agendaMid
      have less : t.workLeft left < s.workLeft commands := Nat.lt_of_le_of_lt le less
      exact ⟨t, left, .cons moves takes, agendaEnd, first.trans second, less.le, fun _ _ _ => less⟩
    · obtain rfl := runTurn_of_disabled agentOf (quietTurn_drawsNoError quietTurn s) ready moves
      obtain ⟨t, left, takes, agendaEnd, advance, le, strict⟩ := ih quietTurns agenda
      refine ⟨t, left, .cons moves takes, agendaEnd, advance, le, fun agent enabled listed => ?_⟩
      obtain ⟨other, listed, otherAgent⟩ := listed
      obtain rfl | later := List.mem_cons.1 listed
      · rw [agentOf] at otherAgent
        cases otherAgent
        exact absurd enabled ready
      · exact strict agent enabled ⟨other, later, otherAgent⟩

/-- A fair round does a part of the agenda, as long as it is not done. -/
theorem fairRound_advances {round : List Turn} (fair : FairRound round) {s : State} {commands : List Instr}
    (agenda : s.Agenda commands []) :
    ∃ t left, Takes round s t ∧ t.Agenda left [] ∧ Advance s commands t left ∧
      t.workLeft left ≤ s.workLeft commands - 1 := by
  obtain ⟨ctrl, chan, port, quiet⟩ := fair
  obtain ⟨t, left, takes, agendaEnd, advance, le, strict⟩ := quietTurns_advance quiet agenda
  refine ⟨t, left, takes, agendaEnd, advance, ?_⟩
  by_cases none : s.workLeft commands = 0
  · rwa [none] at le ⊢
  · have unfinished : ¬ s.Finished commands := by
      rintro ⟨idle, rfl⟩
      exact none ((workLeft_idle idle []).trans (Nat.zero_mul _))
    obtain ⟨agent, enabled⟩ := agenda.some_enabled unfinished
    have listed : ∃ turn ∈ round, fairAgentOf turn = some agent := by
      cases agent with
      | ctrl => exact ⟨_, ctrl, rfl⟩
      | chan => exact ⟨_, chan, rfl⟩
      | port => exact ⟨_, port, rfl⟩
    exact Nat.le_sub_one_of_lt (strict agent enabled listed)

theorem fairRounds_advance {rounds : List (List Turn)} (fair : ∀ round ∈ rounds, FairRound round) {s : State}
    {commands : List Instr} (agenda : s.Agenda commands []) :
    ∃ t left, Takes rounds.flatten s t ∧ t.Agenda left [] ∧ Advance s commands t left ∧
      t.workLeft left ≤ s.workLeft commands - rounds.length := by
  induction rounds generalizing s commands with
  | nil => exact ⟨s, commands, .nil s, agenda, .refl s commands, Nat.le_refl _⟩
  | cons round rounds ih =>
    obtain ⟨fairRound, fairRounds⟩ := List.forall_mem_cons.1 fair
    obtain ⟨u, mid, takesRound, agendaMid, first, leMid⟩ := fairRound_advances fairRound agenda
    obtain ⟨t, left, takes, agendaEnd, second, le⟩ := ih fairRounds agendaMid
    refine ⟨t, left, takesRound.append takes, agendaEnd, first.trans second, ?_⟩
    rw [List.length_cons]
    omega

/-- Settles O50: each round does a part of the agenda, and there are at least as many rounds as steps to do. -/
theorem commandsRunInOrderAsTheSequentialDisplay : Obligations.CommandsRunInOrderAsTheSequentialDisplay := by
  intro s commands rounds full idle decoded listed fair enough
  obtain ⟨-, ⟨-, rest, -⟩, -, -⟩ := full.1
  obtain ⟨-, -, -, -, -, -, -, safe⟩ := rest idle
  have agenda : s.Agenda commands [] := ⟨full, safe, s.pending, (List.append_nil _).symm, decoded⟩
  obtain ⟨t, left, takes, agendaEnd, advance, le⟩ := fairRounds_advance fair agenda
  rw [workLeft_idle idle, Nat.sub_eq_zero_of_le enough, Nat.le_zero] at le
  obtain ⟨idleEnd, rfl⟩ := agendaEnd.finished le
  obtain ⟨words, pending, none⟩ := agendaEnd.offered
  rw [List.map_nil, List.map_eq_nil_iff] at none
  rw [none, List.append_nil] at pending
  obtain ⟨logical, log⟩ := advance.done idleEnd idle
  have runs := takes.runFor
  rw [← listed] at runs ⊢
  exact ⟨_, runs, idleEnd, pending, agendaEnd.safe, logical, log⟩

end Sys2Proof.Machine

namespace Sys2Proof.Machine
/-! Weakly fair runs (43_transfer.md R173). -/

/-- Each of the words was offered by a turn of HOST from the moment `k` on and before the moment `m`. -/
abbrev OfferedBetween (turns : Nat → Turn) (k m : Nat) (words : List Nat) : Prop :=
  ∀ word ∈ words, ∃ j, k ≤ j ∧ j < m ∧ turns j = .host word

theorem OfferedBetween.mono {turns : Nat → Turn} {k m m' : Nat} {words : List Nat}
    (offered : OfferedBetween turns k m words) (le : m ≤ m') : OfferedBetween turns k m' words := by
  intro word mem
  obtain ⟨j, after, before, turn⟩ := offered word mem
  exact ⟨j, after, Nat.lt_of_lt_of_le before le, turn⟩

/-- A turn of HOST offers one word more, behind those of the agenda. -/
theorem State.Agenda.host {s : State} {commands : List Instr} {since : List Nat} (agenda : s.Agenda commands since)
    (w : Nat) : State.Agenda { s with pending := s.pending ++ [w] } commands (since ++ [w]) := by
  obtain ⟨full, safe, words, pending, decoded⟩ := agenda
  exact ⟨full, safe, words, by rw [pending, List.append_assoc], decoded⟩

section WeaklyFairRun
variable {turns : Nat → Turn} {states : Nat → State} {start : Nat}

theorem IsRun.fullInv (run : IsRun turns states) (full : (states start).FullInv) {j : Nat} (le : start ≤ j) :
    (states j).FullInv := by
  induction j, le using Nat.le_induction with
  | base => exact full
  | succ j _ ih => exact runTurn_keeps_fullInv ih (run j)

/-- A turn that is not of an agent with an enabled step leaves the agenda to be done, at most with a word more offered
after it. -/
theorem IsRun.waits (run : IsRun turns states) {k : Nat} (noError : DrawsNoError (turns k) (states k))
    {commands : List Instr} {since : List Nat} (agenda : (states k).Agenda commands since) (le : start ≤ k)
    (offered : OfferedBetween turns start k since)
    (off : ∀ agent, fairAgentOf (turns k) = some agent → ¬ (states k).enabled agent = true) :
    ∃ since', (states (k + 1)).Agenda commands since' ∧ OfferedBetween turns start (k + 1) since' ∧
      Advance (states k) commands (states (k + 1)) commands ∧
      (states (k + 1)).workLeft commands = (states k).workLeft commands ∧
      (states (k + 1)).phase = (states k).phase := by
  have moves := run k
  cases agentOf : fairAgentOf (turns k) with
  | none =>
    obtain ⟨w, turn⟩ : ∃ w, turns k = .host w := by
      cases turn : turns k with
      | host w => exact ⟨w, rfl⟩
      | _ => simp [turn, fairAgentOf] at agentOf
    rw [turn] at moves
    injection moves with next
    rw [← next]
    refine ⟨since ++ [w], agenda.host w, fun word mem => ?_, ⟨rfl, rfl, rfl⟩, rfl, rfl⟩
    obtain mem | mem := List.mem_append.1 mem
    · exact offered.mono (Nat.le_succ k) word mem
    · rw [List.mem_singleton.1 mem]
      exact ⟨k, le, Nat.lt_succ_self k, turn⟩
  | some agent =>
    rw [runTurn_of_disabled agentOf noError (off agent agentOf) moves]
    exact ⟨since, agenda, offered.mono (Nat.le_succ k), .refl _ _, rfl, rfl⟩

/-- The same in a run, at one of its moments. -/
theorem IsRun.proceeds_now (run : IsRun turns states) (noErrors : NoFlushError turns states start)
    {commands : List Instr} {since : List Nat} {agent : FairAgent} {k : Nat} (le : start ≤ k)
    (agenda : (states k).Agenda commands since) (unfinished : ¬ (states k).Finished commands)
    (turn : fairAgentOf (turns k) = some agent) (ready : (states k).enabled agent = true) :
    (states k).Proceeds commands since (states (k + 1)) :=
  runTurn_proceeds agenda (fun idle none => unfinished ⟨idle, none⟩) turn ready (noErrors k le) (run k)

/-- By the moment at which an enabled agent has had the turn, a part of the agenda is done. -/
theorem IsRun.proceeds (run : IsRun turns states) (noErrors : NoFlushError turns states start) {commands : List Instr}
    {since : List Nat} {agent : FairAgent} {d k : Nat} (le : start ≤ k) (agenda : (states k).Agenda commands since)
    (offered : OfferedBetween turns start k since) (unfinished : ¬ (states k).Finished commands)
    (turn : fairAgentOf (turns (k + d)) = some agent) (ready : (states (k + d)).enabled agent = true) :
    ∃ m left since', k ≤ m ∧ (states m).Agenda left since' ∧ OfferedBetween turns start m since' ∧
      Advance (states k) commands (states m) left ∧
      (states m).workLeft left < (states k).workLeft commands := by
  induction d generalizing k since with
  | zero =>
    obtain ⟨left, agendaNext, advance, less⟩ := run.proceeds_now noErrors le agenda unfinished turn ready
    exact ⟨k + 1, left, since, Nat.le_succ k, agendaNext, offered.mono (Nat.le_succ k), advance, less⟩
  | succ d ih =>
    by_cases now : ∃ mover, fairAgentOf (turns k) = some mover ∧ (states k).enabled mover = true
    · obtain ⟨mover, agentOf, enabled⟩ := now
      obtain ⟨left, agendaNext, advance, less⟩ := run.proceeds_now noErrors le agenda unfinished agentOf enabled
      exact ⟨k + 1, left, since, Nat.le_succ k, agendaNext, offered.mono (Nat.le_succ k), advance, less⟩
    · obtain ⟨since', agendaNext, offeredNext, first, same, phase⟩ := run.waits (noErrors k le) agenda le offered
        fun mover agentOf enabled => now ⟨mover, agentOf, enabled⟩
      have unfinishedNext : ¬ (states (k + 1)).Finished commands := by rwa [State.Finished, phase]
      rw [← Nat.succ_add_eq_add_succ] at turn ready
      obtain ⟨m, left, since'', leEnd, agendaEnd, offeredEnd, second, less⟩ :=
        ih (Nat.le_succ_of_le le) agendaNext offeredNext unfinishedNext turn ready
      rw [same] at less
      exact ⟨m, left, since'', Nat.le_of_succ_le leEnd, agendaEnd, offeredEnd, first.trans second, less⟩

/-- The agenda of a weakly fair run comes to be done, by induction on the steps that are left. -/
theorem IsRun.finishes (run : IsRun turns states) (fair : WeaklyFair turns states)
    (noErrors : NoFlushError turns states start) {commands : List Instr} {since : List Nat} {k : Nat}
    (le : start ≤ k) (agenda : (states k).Agenda commands since) (offered : OfferedBetween turns start k since) :
    ∃ m since', k ≤ m ∧ (states m).phase = .idle ∧ (states m).Agenda [] since' ∧
      OfferedBetween turns start m since' ∧ Advance (states k) commands (states m) [] := by
  induction work : (states k).workLeft commands using Nat.strong_induction_on generalizing k commands since with
  | h work ih =>
    subst work
    by_cases finished : (states k).Finished commands
    · obtain ⟨idle, rfl⟩ := finished
      exact ⟨k, since, Nat.le_refl k, idle, agenda, offered, .refl _ _⟩
    · obtain ⟨agent, ready⟩ := agenda.some_enabled finished
      obtain ⟨j, later, readyThen, turn⟩ := weaklyFair_taken fair ready fun j after enabled other =>
        enabled_stays (run.fullInv agenda.full after).1 (run j) enabled other
      obtain ⟨d, rfl⟩ := Nat.exists_eq_add_of_le later
      obtain ⟨m, left, since', leMid, agendaMid, offeredMid, first, less⟩ :=
        run.proceeds noErrors le agenda offered finished turn readyThen
      obtain ⟨m', since'', leEnd, idle, agendaEnd, offeredEnd, second⟩ :=
        ih _ less (Nat.le_trans le leMid) agendaMid offeredMid rfl
      exact ⟨m', since'', Nat.le_trans leMid leEnd, idle, agendaEnd, offeredEnd, first.trans second⟩

end WeaklyFairRun

/-- Settles O54: the words that are pending at the end were all offered since. -/
theorem weaklyFairRunsFollowTheSequentialDisplay : Obligations.WeaklyFairRunsFollowTheSequentialDisplay := by
  intro turns states k commands run fair noErrors full idle decoded
  obtain ⟨-, ⟨-, rest, -⟩, -, -⟩ := full.1
  obtain ⟨-, -, -, -, -, -, -, safe⟩ := rest idle
  have agenda : (states k).Agenda commands [] := ⟨full, safe, _, (List.append_nil _).symm, decoded⟩
  obtain ⟨m, since, le, idleEnd, ⟨-, safeEnd, words, pending, none⟩, offered, advance⟩ :=
    run.finishes fair noErrors (Nat.le_refl k) agenda fun _ => nofun
  rw [List.map_nil, List.map_eq_nil_iff] at none
  rw [none, List.nil_append] at pending
  obtain ⟨logical, log⟩ := advance.done idleEnd idle
  exact ⟨m, le, idleEnd, safeEnd, pending ▸ offered, logical, log⟩

end Sys2Proof.Machine

namespace Sys2Proof
/-! The command word (30_encoding.md R82 to R88): the operand forms and their numbers are inverse to each other, so
decoding undoes encoding, and encoding what was decoded clears the ignored bits. -/

section Operands

theorem maskArg_cons (b : Bool) (rest : List Bool) : maskArg (b :: rest) = b.toNat + 2 * maskArg rest := rfl

theorem bytesArg_cons (b : Byte) (rest : List Byte) : bytesArg (b :: rest) = b.toNat + 256 * bytesArg rest := rfl

/-- Bit `i` of a mask's number is element `i` of the mask (R86). -/
theorem map_testBit_maskArg (mask : List Bool) : (List.range mask.length).map (maskArg mask).testBit = mask := by
  induction mask with
  | nil => rfl
  | cons b rest ih =>
    have head : (b.toNat + 2 * maskArg rest).testBit 0 = b := by cases b <;> simp
    have tail : (b.toNat + 2 * maskArg rest).testBit ∘ Nat.succ = (maskArg rest).testBit := by
      funext i
      have half : (b.toNat + 2 * maskArg rest) / 2 = maskArg rest := by
        have bit : b.toNat < 2 := b.toNat_lt
        omega
      rw [Function.comp_apply, Nat.testBit_succ, half]
    rw [maskArg_cons, List.length_cons, List.range_succ_eq_map, List.map_cons, List.map_map, head, tail, ih]

/-- The number of the `k` low bits of `arg` is `arg` with the bits above them cleared. -/
theorem maskArg_map_testBit (k arg : Nat) : maskArg ((List.range k).map arg.testBit) = arg % 2 ^ k := by
  induction k generalizing arg with
  | zero => rw [Nat.pow_zero, Nat.mod_one]; rfl
  | succ k ih =>
    have tail : arg.testBit ∘ Nat.succ = (arg / 2).testBit := funext fun i => Nat.testBit_succ arg i
    rw [List.range_succ_eq_map, List.map_cons, List.map_map, tail, maskArg_cons, ih, Nat.pow_succ', Nat.mod_mul,
      Nat.toNat_testBit, Nat.pow_zero, Nat.div_one]

theorem div_two_pow_byte_succ (arg j : Nat) : arg / 2 ^ (8 * (j + 1)) = arg / 256 / 2 ^ (8 * j) := by
  rw [Nat.div_div_eq_div_mul, Nat.mul_succ, Nat.add_comm, Nat.pow_add]

/-- Byte `j` of a byte list's number is element `j` of the list (R86). -/
theorem map_byte_bytesArg (bytes : List Byte) :
    (List.range bytes.length).map (fun j => BitVec.ofNat 8 (bytesArg bytes / 2 ^ (8 * j))) = bytes := by
  induction bytes with
  | nil => rfl
  | cons b rest ih =>
    have byte : b.toNat < 256 := b.isLt
    have head : BitVec.ofNat 8 ((b.toNat + 256 * bytesArg rest) / 2 ^ (8 * 0)) = b := by
      apply BitVec.eq_of_toNat_eq
      simpa using byte
    have shifted : (b.toNat + 256 * bytesArg rest) / 256 = bytesArg rest := by omega
    rw [bytesArg_cons, List.length_cons, List.range_succ_eq_map, List.map_cons, List.map_map, head]
    simpa [Function.comp_def, div_two_pow_byte_succ, shifted] using ih

/-- The number of the `k` low bytes of `arg` is `arg` with the bytes above them cleared. -/
theorem bytesArg_map_byte (k arg : Nat) :
    bytesArg ((List.range k).map fun j => BitVec.ofNat 8 (arg / 2 ^ (8 * j))) = arg % 2 ^ (8 * k) := by
  induction k generalizing arg with
  | zero => rw [Nat.mul_zero, Nat.pow_zero, Nat.mod_one]; rfl
  | succ k ih =>
    have split : 2 ^ (8 * (k + 1)) = 256 * 2 ^ (8 * k) := by rw [Nat.mul_succ, Nat.add_comm, Nat.pow_add]
    rw [List.range_succ_eq_map, List.map_cons, List.map_map, bytesArg_cons, split, Nat.mod_mul, ← ih]
    simp [Function.comp_def, div_two_pow_byte_succ]

variable {c : Config}

theorem maskOperand_maskArg {mask : List Bool} (len : mask.length = c.n) : maskOperand c (maskArg mask) = mask := by
  rw [maskOperand, ← len, map_testBit_maskArg]

theorem bytesOperand_bytesArg {bytes : List Byte} (len : bytes.length = c.dlen) :
    bytesOperand c (bytesArg bytes) = bytes := by
  rw [bytesOperand, ← len, map_byte_bytesArg]

/-- Of the argument field a mask takes the N low bits (R87). -/
theorem maskArg_maskOperand (w : Nat) : maskArg (maskOperand c (argField c w)) = w / 8 % 2 ^ c.n := by
  rw [maskOperand, maskArg_map_testBit, argField, Nat.mod_mod_of_dvd _ (Nat.pow_dvd_pow 2 (by omega))]

/-- A byte list takes all of the argument field (R87). -/
theorem bytesArg_bytesOperand (w : Nat) : bytesArg (bytesOperand c (argField c w)) = w / 8 % 2 ^ (4 * c.n) := by
  have bits : 8 * c.dlen = 4 * c.n := by rw [← c.two_mul_dlen, ← Nat.mul_assoc]
  rw [bytesOperand, bytesArg_map_byte, bits, argField, Nat.mod_mod]

end Operands

/-- The family `EncodeFits` holds of every command. -/
theorem encodeFits (i : Instr) : Laws.EncodeFits.Statement i := by
  cases i with
  | allOn => exact Laws.EncodeFits.allOn
  | allOff => exact Laws.EncodeFits.allOff
  | on mask => exact Laws.EncodeFits.on mask
  | dPoints mask => exact Laws.EncodeFits.dPoints mask
  | values bytes => exact Laws.EncodeFits.values bytes
  | showFrame => exact Laws.EncodeFits.showFrame

/-- The argument of a command whose word fits the command port is read back from the word (R82, R86). -/
theorem argField_encode {c : Config} {i : Instr} (fits : encode i < 2 ^ c.wordWidth) :
    argField c (encode i) = argOf i := by
  have small : opcode i < 8 := by cases i <;> simp [opcode]
  rw [Config.wordWidth, Nat.pow_add, encode] at fits
  rw [argField, encode, Nat.mul_add_div (by decide), Nat.div_eq_of_lt small, Nat.add_zero, Nat.mod_eq_of_lt (by omega)]

/-- Settles O1: the word's two fields are the command's opcode and argument, and its operand is read back from the
argument. -/
theorem decodingAnEncodedCommandGivesItBack : Obligations.DecodingAnEncodedCommandGivesItBack := by
  intro c i wf
  obtain ⟨fits, op⟩ := encodeFits i c wf
  rw [decode, op, argField_encode fits]
  cases i with
  | allOn | allOff | showFrame => rfl
  | on mask | dPoints mask => simp only [opcode, argOf, maskOperand_maskArg (beq_iff_eq.1 wf)]
  | values bytes => simp only [opcode, argOf, bytesOperand_bytesArg (beq_iff_eq.1 wf)]

theorem mod_two_pow_three_add (w k : Nat) : w % 2 ^ (3 + k) = 8 * (w / 8 % 2 ^ k) + w % 8 := by
  rw [Nat.pow_add, Nat.mod_mul, Nat.add_comm]

/-- Assembling a decoded command gives the word with its ignored bits cleared (R87). -/
theorem encode_of_decode {c : Config} {w : Nat} {i : Instr} (decoded : decode c w = .command i) :
    encode i = readBits c w := by
  unfold decode at decoded
  unfold readBits
  split at decoded
  case h_1 op | h_2 op | h_6 op =>
    cases decoded
    rw [op]
    rfl
  case h_3 op | h_4 op =>
    cases decoded
    simp only [op, encode, argOf, opcode, maskArg_maskOperand, mod_two_pow_three_add]
    exact congrArg _ op.symm
  case h_5 op =>
    cases decoded
    simp only [op, encode, argOf, opcode, bytesArg_bytesOperand, Config.wordWidth, mod_two_pow_three_add]
    exact congrArg _ op.symm
  case h_7 => cases decoded

/-- A reserved opcode is read alone (R87, R88). -/
theorem readBits_of_illegal {c : Config} {w op : Nat} (illegal : decode c w = .illegal op) : readBits c w = op := by
  obtain ⟨field, reserved⟩ := Machine.decode_illegal_iff.1 illegal
  rw [readBits, opField, field]
  obtain rfl | rfl := reserved <;> rfl

/-- The decoder reads no ignored bit (R87): a command is decoded from its own encoding. -/
theorem decode_readBits (c : Config) (w : Nat) : decode c (readBits c w) = decode c w := by
  cases decoded : decode c w with
  | command i =>
    rw [← encode_of_decode decoded]
    exact decodingAnEncodedCommandGivesItBack c i (Machine.decode_command_wf decoded)
  | illegal op =>
    obtain ⟨-, reserved⟩ := Machine.decode_illegal_iff.1 decoded
    rw [readBits_of_illegal decoded, Machine.decode_illegal_iff]
    exact ⟨by omega, reserved⟩

/-- Settles O2. -/
theorem ignoredBitsDoNotMatter : Obligations.IgnoredBitsDoNotMatter := by
  intro c w
  refine ⟨fun i decoded => ⟨Machine.decode_command_wf decoded, encode_of_decode decoded⟩, fun w' same => ?_⟩
  calc decode c w' = decode c (readBits c w') := (decode_readBits c w').symm
    _ = decode c (readBits c w) := by rw [same]
    _ = decode c w := decode_readBits c w

/-- The word that a command assembles to decodes to the command, when the command port can carry it (R82, R86). -/
theorem decode_of_encode {c : Config} {i : Instr} {w : Nat} (wf : i.wf c = true) (word : encode i = w) :
    decode c w = .command i := by
  rw [← word]
  exact decodingAnEncodedCommandGivesItBack c i wf

/-- Settles O3: assembling a command is a computation, and O1 decodes its word. -/
theorem workedEncodingsOfTheSpec : Obligations.WorkedEncodingsOfTheSpec := by
  refine fun c => ⟨fun two => ?_, fun four => ?_⟩
  · have width : c.wordWidth = 11 := by rw [Config.wordWidth, two]
    have oneByte : 1 = c.dlen := by rw [Config.dlen, two]
    exact ⟨width, decode_of_encode (beq_iff_eq.2 oneByte) rfl, rfl, decode_of_encode rfl rfl, rfl,
      decode_of_encode rfl rfl, rfl, decode_of_encode (beq_iff_eq.2 two.symm) rfl, rfl⟩
  · have width : c.wordWidth = 19 := by rw [Config.wordWidth, four]
    have twoBytes : 2 = c.dlen := by rw [Config.dlen, four]
    exact ⟨width, decode_of_encode (beq_iff_eq.2 twoBytes) rfl, rfl,
      decode_of_encode (beq_iff_eq.2 four.symm) rfl, rfl, decode_of_encode (beq_iff_eq.2 four.symm) rfl, rfl,
      decode_of_encode rfl rfl, rfl, Machine.decode_illegal_iff.2 ⟨rfl, .inl rfl⟩,
      Machine.decode_illegal_iff.2 ⟨rfl, .inr rfl⟩⟩

end Sys2Proof

namespace Sys2Proof.Machine
/-! The released frame (43_transfer.md R161, R169): a log inside a frame ends in that frame's LatchFall and bytes, so
the LatchRise of LATCH_HIGH_RETURN completes the frame of the rendered buffer. -/

/-- What puts the log inside a frame: a LatchFall between frames, or a byte inside the frame (R80). -/
theorem next_eq_inside {n : Nat} {position : WirePos} {e : Event} {sent : List Byte}
    (next : position.next n e = some (.inside sent)) :
    (position = .between ∧ e = .latchFall ∧ sent = []) ∨
      ∃ before b, position = .inside before ∧ e = .byte b ∧ sent = before ++ [b] := by
  unfold WirePos.next at next
  split at next
  case h_1 =>
    cases next
    exact .inl ⟨rfl, rfl, rfl⟩
  case h_2 before b =>
    obtain ⟨-, same⟩ := Option.ite_none_right_eq_some.1 next
    cases same
    exact .inr ⟨before, b, rfl, rfl, rfl⟩
  case h_3 =>
    obtain ⟨-, same⟩ := Option.ite_none_right_eq_some.1 next
    cases same
  case h_4 => cases next

/-- A log that stands inside a frame is whole frames, a LatchFall and the bytes sent (R169). -/
theorem wire_of_inside {n : Nat} (wire : List Event) {sent : List Byte}
    (inside : wirePos n wire = some (.inside sent)) :
    ∃ earlier, wirePos n earlier = some .between ∧ wire = earlier ++ .latchFall :: sent.map .byte := by
  induction wire using List.reverseRecOn generalizing sent with
  | nil => cases inside
  | append_singleton wire e ih =>
    rw [wirePos_append, Option.bind_eq_some_iff] at inside
    obtain ⟨position, stands, next⟩ := inside
    obtain ⟨rfl, rfl, rfl⟩ | ⟨before, b, rfl, rfl, rfl⟩ := next_eq_inside next
    · exact ⟨wire, stands, rfl⟩
    · obtain ⟨earlier, between, rfl⟩ := ih stands
      exact ⟨earlier, between, by simp⟩

/-- Once the queue is empty in the second wait, the whole buffer is on the wire (R157, R159). -/
theorem flushed_wire {s : State} (inv : s.Inv) (wireInv : s.WireInv) (sending : s.phase = .xmit)
    (sub : s.xsub = .flushWait) (empty : s.portQ = []) : wirePos s.cfg.n s.wire = some (.inside s.bits) := by
  obtain ⟨⟨⟨-, -, -, length⟩, -, -, -, -⟩, location⟩ := (inv_iff_atLocation s).1 inv
  obtain ⟨-, low, -⟩ := (atLocation_flushWait sending sub).1 location
  obtain ⟨log, -⟩ := (wireInv_iff s).1 wireInv
  simpa [low, empty, moved_flushWait sending sub, ← length] using log.position

/-- LATCH_HIGH_RETURN completes the frame of the rendered buffer (R160, R161). -/
theorem latchHighReturn_releases {s : State} (full : s.FullInv) (sending : s.phase = .xmit)
    (sub : s.xsub = .flushWait) (empty : s.portQ = []) :
    ∃ earlier, wirePos s.cfg.n earlier = some .between ∧
      (latchHighReturn s).wire = earlier ++ frame (latchHighReturn s).rendered ∧
      (latchHighReturn s).bits = (latchHighReturn s).rendered := by
  obtain ⟨inv, wireInv, -, sent⟩ := full
  obtain ⟨rendered, -⟩ := sent sending
  obtain ⟨earlier, between, wire⟩ := wire_of_inside s.wire (flushed_wire inv wireInv sending sub empty)
  refine ⟨earlier, between, ?_, rendered⟩
  rw [latchHighReturn_wire, wire, show (latchHighReturn s).rendered = s.bits from rendered.symm]
  simp [frame]

/-- The step that raises the latch is LATCH_HIGH_RETURN (R158). -/
theorem step_latch_raised {s t : State} (stepped : step s = .next t) (low : s.latch = false) (high : t.latch = true) :
    t = latchHighReturn s.spendTurn := by
  obtain ⟨sending, sub, empty, turn, -⟩ := latchRisesOnlyAfterBothWaits s t stepped low high
  have returns : step s = .next (latchHighReturn s.spendTurn) := by
    simp [step, turn, runTurn, ctrlTurn, sending, sub, waitFlush, State.portFlushed, empty]
  exact Host.Outcome.next.inj (stepped.symm.trans returns)

/-- Settles O32. -/
theorem everyReleasedFrameIsTheRenderedFrame : Obligations.EveryReleasedFrameIsTheRenderedFrame := by
  intro s t full stepped low high
  obtain ⟨sending, sub, empty, -⟩ := latchRisesOnlyAfterBothWaits s t stepped low high
  rw [step_latch_raised stepped low high, ← spendTurn_cfg s]
  exact latchHighReturn_releases ((spendTurn_fullInv s).2 full) ((spendTurn_phase s).trans sending)
    ((spendTurn_xsub s).trans sub) ((spendTurn_portQ s).trans empty)

end Sys2Proof.Machine

namespace Sys2Proof.Machine
/-! A word offered in `IDLE` (30_encoding.md R83, R85, R88): the turn of CTRL accepts it. -/

/-- In `IDLE`, a turn of CTRL accepts the first word offered (R83). -/
theorem step_accepts {s : State} {flushErr : Bool} {w : Nat} {rest : List Nat} (ready : s.phase = .idle)
    (turn : s.nextTurn = .ctrl flushErr) (offered : s.pending = w :: rest) :
    step s = acceptWord w rest s.spendTurn := by
  simp only [step, turn, runTurn, ctrlTurn, spendTurn_phase, ready, spendTurn_pending, offered]

theorem acceptWord_command {w : Nat} {s : State} {i : Instr} (decoded : decode s.cfg w = .command i) (rest : List Nat) :
    acceptWord w rest s = exec i { s with pending := rest } := by
  rw [acceptWord, decoded]

theorem acceptWord_illegal {w op : Nat} {s : State} (decoded : decode s.cfg w = .illegal op) (rest : List Nat) :
    acceptWord w rest s = .next (raise .illegalCmd { s with pending := rest }) := by
  rw [acceptWord, decoded]

/-- Settles O5. -/
theorem stepRunsTheDecodedCommand : Obligations.StepRunsTheDecodedCommand := by
  intro s flushErr w rest i ready turn offered decoded
  rw [← spendTurn_cfg s] at decoded
  rw [step_accepts ready turn offered, acceptWord_command decoded]

/-- Settles O6: the opcodes 6 and 7 are those that decode to no command. -/
theorem reservedOpcodeRaisesIllegalCmd : Obligations.ReservedOpcodeRaisesIllegalCmd := by
  intro s flushErr w rest ready turn offered reserved
  have illegal : decode s.spendTurn.cfg w = .illegal (w % 8) := decode_illegal_iff.2 ⟨rfl, reserved⟩
  rw [step_accepts ready turn offered, acceptWord_illegal illegal, raise]

/-- In `IDLE` an operand of another length than the configuration's is refused (R86; log 11). -/
theorem acceptSized_of_ne {len want : Nat} {effect : State → State} {s : State} (ready : s.phase = .idle)
    (wrong : len ≠ want) : acceptSized len want effect s = .refused .operandLength := by
  rw [acceptSized, if_pos ready, if_neg wrong]

/-- Settles O13: a command with no operand is well formed, and the others are refused on the length of theirs. -/
theorem operandOfWrongLengthIsRefused : Obligations.OperandOfWrongLengthIsRefused := by
  intro s i ready wrong
  cases i with
  | allOn | allOff | showFrame => cases wrong
  | on | dPoints | values =>
    rw [exec]
    exact acceptSized_of_ne ready (beq_eq_false_iff_ne.1 wrong)

end Sys2Proof.Machine

namespace Sys2Proof.Machine
/-! The text of a command (30_encoding.md R90): the reader's tokens of what the writer writes, and the command they
spell. -/

/-- A character that stands inside a word: no white space, bracket, comma or start of a comment. -/
def wordChar (ch : Char) : Bool := !([';', ' ', '\t', '[', ']', '(', ')', ','].contains ch)

theorem tokens_cons_wordChar {ch : Char} (word : wordChar ch = true) (acc rest : List Char) :
    tokens acc (ch :: rest) = tokens (ch :: acc) rest := by
  simp only [wordChar, List.contains_cons, List.contains_nil, Bool.or_false, Bool.not_or, Bool.and_eq_true,
    Bool.not_eq_true', beq_eq_false_iff_ne, ne_eq] at word
  simp [tokens, word]

/-- The characters of a word are collected, the last one first. -/
theorem tokens_append_word {word : List Char} (chars : word.all wordChar = true) (acc rest : List Char) :
    tokens acc (word ++ rest) = tokens (word.reverse ++ acc) rest := by
  induction word generalizing acc with
  | nil => rfl
  | cons ch word ih =>
    rw [List.all_cons, Bool.and_eq_true] at chars
    obtain ⟨head, tail⟩ := chars
    rw [List.cons_append, tokens_cons_wordChar head, ih tail, List.reverse_cons, List.append_assoc,
      List.singleton_append]

theorem flushWord_reverse {word : List Char} (nonempty : word ≠ []) : flushWord word.reverse = [.word word] := by
  simp [flushWord, nonempty]

theorem flushWord_nil : flushWord [] = [] := rfl

theorem tokens_space (acc rest : List Char) : tokens acc (' ' :: rest) = flushWord acc ++ tokens [] rest := rfl

theorem tokens_comma (acc rest : List Char) : tokens acc (',' :: rest) = flushWord acc ++ .comma :: tokens [] rest :=
  rfl

theorem tokens_rbrack (acc rest : List Char) : tokens acc (']' :: rest) = flushWord acc ++ .rbrack :: tokens [] rest :=
  rfl

theorem tokens_lbrack (acc rest : List Char) : tokens acc ('[' :: rest) = flushWord acc ++ .lbrack :: tokens [] rest :=
  rfl

/-- A word and the space after it. -/
theorem tokens_word_space {word : List Char} (chars : word.all wordChar = true) (nonempty : word ≠ [])
    (rest : List Char) : tokens [] (word ++ ' ' :: rest) = .word word :: tokens [] rest := by
  rw [tokens_append_word chars, List.append_nil, tokens_space, flushWord_reverse nonempty, List.singleton_append]

/-- Each element is written as one word, which reads back as the element. -/
structure SpelledAsWords {α : Type} (read : List Char → Option α) (write : α → List Char) : Prop where
  chars : ∀ x, (write x).all wordChar = true
  nonempty : ∀ x, write x ≠ []
  reads : ∀ x, read (write x) = some x

section Operand
variable {α : Type} {read : List Char → Option α} {write : α → List Char}

/-- The list after its first element reads back, that element being the word read so far. -/
theorem readItems_writeItems (spelled : SpelledAsWords read write) (x : α) (xs : List α) :
    readItems read (tokens (write x).reverse (writeItems write xs)) = some (x :: xs, []) := by
  induction xs generalizing x with
  | nil =>
    rw [writeItems, tokens_rbrack, flushWord_reverse (spelled.nonempty x), List.singleton_append, readItems,
      spelled.reads x]
    rfl
  | cons y ys ih =>
    have next : readItems read (tokens [] (write y ++ writeItems write ys)) = some (y :: ys, []) := by
      rw [tokens_append_word (spelled.chars y), List.append_nil, ih]
    rw [writeItems, List.cons_append, tokens_comma, flushWord_reverse (spelled.nonempty x), List.singleton_append,
      readItems, spelled.reads x, next]

theorem readOperand_writeOperand (spelled : SpelledAsWords read write) {list : List α} (nonempty : list ≠ []) :
    readOperand read (tokens [] (writeOperand write list)) = some list := by
  cases list with
  | nil => exact absurd rfl nonempty
  | cons x xs =>
    rw [writeOperand, List.cons_append, tokens_lbrack, flushWord_nil, List.nil_append, readOperand,
      tokens_append_word (spelled.chars x), List.append_nil, readItems_writeItems spelled]

end Operand

theorem bits_spelled : SpelledAsWords readBit writeBit where
  chars b := by cases b <;> rfl
  nonempty b := by cases b <;> exact List.cons_ne_nil _ _
  reads b := by cases b <;> rfl

/-- A digit of a value below 16 is a word character and reads back as the value. -/
theorem hexDigit_spelled : ∀ v < 16, wordChar (hexDigit v) = true ∧ hexValue (hexDigit v) = some v := by decide

theorem bytes_spelled : SpelledAsWords readByte writeByte where
  chars b := by
    obtain ⟨high, -⟩ := hexDigit_spelled (b.toNat / 16) (by have := b.isLt; omega)
    obtain ⟨low, -⟩ := hexDigit_spelled (b.toNat % 16) (by omega)
    simp only [writeByte, List.all_cons, List.all_nil, high, low]
    rfl
  nonempty b := List.cons_ne_nil _ _
  reads b := by
    obtain ⟨-, high⟩ := hexDigit_spelled (b.toNat / 16) (by have := b.isLt; omega)
    obtain ⟨-, low⟩ := hexDigit_spelled (b.toNat % 16) (by omega)
    rw [writeByte, readByte, high, low]
    simp only [Nat.div_add_mod, BitVec.ofNat_toNat, BitVec.setWidth_eq]

/-- A line of a mnemonic and a list reads as the command of the mnemonic with that list, when the mnemonic takes
elements of this kind. -/
theorem readCommand_operand {α : Type} {read : List Char → Option α} {write : α → List Char} {mnemonic : List Char}
    {command : List α → Instr}
    (takes : ∀ rest, readCommand (.word mnemonic :: rest) = (readOperand read rest).map command)
    (chars : mnemonic.all wordChar = true) (named : mnemonic ≠ []) (spelled : SpelledAsWords read write)
    {list : List α} (nonempty : list ≠ []) :
    readCommand (tokens [] (mnemonic ++ ' ' :: writeOperand write list)) = some (command list) := by
  rw [tokens_word_space chars named, takes, readOperand_writeOperand spelled nonempty, Option.map_some]

/-- A list of the positive length that the configuration asks for has an element. -/
theorem ne_nil_of_length {α : Type} {list : List α} {k : Nat} (len : (list.length == k) = true) (pos : 0 < k) :
    list ≠ [] := by
  rw [beq_iff_eq] at len
  exact List.ne_nil_of_length_pos (len ▸ pos)

/-- The line of a well-formed command spells the command: its list is not empty, N and DLEN being positive (R7, R8). -/
theorem readCommand_writeLine {c : Config} {i : Instr} (wf : i.wf c = true) :
    readCommand (tokens [] (writeLine i)) = some i := by
  obtain ⟨-, two, -⟩ := c.legal_parts
  have digits : 0 < c.n := Nat.lt_of_lt_of_le Nat.two_pos two
  cases i with
  | allOn | allOff | showFrame => rfl
  | on mask =>
    exact readCommand_operand (mnemonic := ['O', 'N']) (fun _ => rfl) rfl (List.cons_ne_nil _ _) bits_spelled
      (ne_nil_of_length wf digits)
  | dPoints mask =>
    exact readCommand_operand (mnemonic := ['D', 'P', 'O', 'I', 'N', 'T', 'S']) (fun _ => rfl) rfl
      (List.cons_ne_nil _ _) bits_spelled (ne_nil_of_length wf digits)
  | values bytes =>
    exact readCommand_operand (mnemonic := ['V', 'A', 'L', 'U', 'E', 'S']) (fun _ => rfl) rfl
      (List.cons_ne_nil _ _) bytes_spelled (ne_nil_of_length wf c.dlen_pos)

/-- Settles O4. -/
theorem readingAWrittenCommandGivesItBack : Obligations.ReadingAWrittenCommandGivesItBack := by
  intro c i wf
  rw [readLine, readCommand_writeLine wf, Option.filter_some, wf, if_pos rfl]

end Sys2Proof.Machine

namespace Sys2Proof.Machine
/-! The accelerator (40_encoder.md R106 to R109): CONFIGURE leaves it configured, and then LOOKUP answers the byte's two
nibbles, which determine the byte. -/

theorem configure_configured (a : Accel) : (configure a).Configured := ⟨rfl, rfl, rfl, rfl⟩

/-- CONFIGURE finds nothing to do where the lane registers have their values (R106). -/
theorem configure_of_configured {a : Accel} (configured : a.Configured) : configure a = a := by
  obtain ⟨cfgDone, lane0, lane1, accum⟩ := a
  obtain ⟨rfl, rfl, rfl, rfl⟩ := configured
  rfl

/-- Settles O17. -/
theorem configureSetsTheLanes : Obligations.ConfigureSetsTheLanes :=
  fun a => ⟨configure_configured a, configure_accum a, configure_of_configured (configure_configured a)⟩

/-- LOOKUP on a configured accelerator: the load and the two lane results, the high index first (R108, R110). -/
theorem lookup_of_configured {a : Accel} (configured : a.Configured) (b : Byte) :
    lookup a b = .indices { a with accum := b } ((b >>> 4) &&& 0x0F) (b &&& 0x0F) := by
  obtain ⟨done, lane0, lane1, shared⟩ := configured
  simp only [lookup, done, shared, if_true, Accel.result0, Accel.result1, Accel.load, lane0, lane1, laneResult_low,
    laneResult_high]

/-- The high nibble's mask changes nothing: the shift leaves four bits (R113). -/
theorem shiftRight_4_and_0F (b : Byte) : (b >>> 4) &&& (0x0F : Byte) = b >>> 4 := by
  apply BitVec.eq_of_toNat_eq
  have four : b.toNat / 2 ^ 4 < 2 ^ 4 := by have := b.isLt; omega
  rw [BitVec.toNat_and, BitVec.toNat_ushiftRight, Nat.shiftRight_eq_div_pow]
  exact (Nat.and_two_pow_sub_one_eq_mod _ 4).trans (Nat.mod_eq_of_lt four)

/-- A byte is its two nibbles put together: bits 3 to 0 come from the low one, bits 7 to 4 from the high one (R109). -/
theorem nibbles_join (b : Byte) : (((b >>> 4) &&& 0x0F) <<< 4) ||| (b &&& 0x0F) = b := by
  rw [shiftRight_4_and_0F]
  have high : (b >>> 4) <<< 4 = b &&& 0xF0 := BitVec.shiftLeft_ushiftRight
  have masks : (0xF0 : Byte) ||| 0x0F = BitVec.allOnes 8 := rfl
  rw [high, ← BitVec.and_or_distrib_left, masks, BitVec.and_allOnes]

/-- LOOKUP is injective: its answer holds both nibbles of the byte (R109). -/
theorem lookup_injective {a : Accel} (configured : a.Configured) {b b' : Byte} {acc acc' : Accel} {high low : Byte}
    (answer : lookup a b = .indices acc high low) (answer' : lookup a b' = .indices acc' high low) : b' = b := by
  rw [lookup_of_configured configured] at answer answer'
  cases answer
  injection answer' with _ sameHigh sameLow
  rw [← nibbles_join b', sameHigh, sameLow, nibbles_join]

/-- Settles O18. -/
theorem lookupSplitsEveryByte : Obligations.LookupSplitsEveryByte := by
  intro a b configured
  have answer := lookup_of_configured configured b
  exact ⟨_, _, answer, rfl, rfl, and_0F_lt b, and_0F_lt (b >>> 4), (nibbles_join b).symm,
    fun _ _ answer' => lookup_injective configured answer answer'⟩

end Sys2Proof.Machine

namespace Sys2Proof
/-! The default table and the other candidate (40_encoder.md R102 to R104). -/

/-- No entry of the default table has the decimal point's bit, the table being the reference configuration's
(R101 item 4). -/
theorem segTableAH_bit7 {p : Byte} (entry : p ∈ segTableAH) : p.getLsbD 7 = false := by
  obtain ⟨-, -, -, -, bit7⟩ := Config.reference.legal_parts
  exact bit7 p entry

/-- Lit and unlit segments of a pattern without bit 7 are together the seven segments (R104). -/
theorem or_complement7 {p : Byte} (bit7 : p.getLsbD 7 = false) : p ||| (0x7F &&& ~~~p) = 0x7F := by
  have mask : ∀ i < 8, (0x7F : Byte).getLsbD i = decide (i ≠ 7) := by decide
  refine BitVec.eq_of_getLsbD_eq fun i hi => ?_
  rw [BitVec.getLsbD_or, BitVec.getLsbD_and, BitVec.getLsbD_not, mask i hi]
  by_cases last : i = 7
  · subst last
    rw [bit7]
    rfl
  · simp [last, hi]

/-- No segment of a pattern is both lit and unlit (R104). -/
theorem and_complement7 (p : Byte) : p &&& (0x7F &&& ~~~p) = 0x00 := by
  rw [BitVec.and_comm 0x7F, ← BitVec.and_assoc, BitVec.and_not_self]
  exact BitVec.zero_and

/-- Entry by entry against the other candidate, an operation that answers one byte for all entries of the default
table. -/
theorem zipWith_segTableAL7 {f : Byte → Byte → Byte} {v : Byte}
    (constant : ∀ p ∈ segTableAH, f p (0x7F &&& ~~~p) = v) :
    List.zipWith f segTableAH segTableAL7 = List.replicate 16 v := by
  rw [segTableAL7, List.zipWith_map_right, List.zipWith_self, List.map_congr_left constant, List.map_const']
  rfl

/-- Settles O19: the glyphs and the distinctness are evaluated; the rest is the reference configuration's legality and
the algebra of complements. -/
theorem defaultTableShowsTheGlyphs : Obligations.DefaultTableShowsTheGlyphs :=
  ⟨by decide, by decide, rfl, Config.reference.conventional_of_legal,
    zipWith_segTableAL7 fun _ entry => or_complement7 (segTableAH_bit7 entry),
    zipWith_segTableAL7 fun p _ => and_complement7 p⟩

end Sys2Proof

namespace Sys2Proof
/-! The mutations' words (30_encoding.md R82, R84, R86): what each opcode decodes to, and the operand read bit by bit,
bit `i` of the argument field being bit `3 + i` of the word. -/

section MutationWords

variable {c : Config} {w : Nat}

theorem decode_op_allOn (op : w % 8 = 0) : decode c w = .command .allOn := by
  simp only [decode, opField, op]

theorem decode_op_allOff (op : w % 8 = 1) : decode c w = .command .allOff := by
  simp only [decode, opField, op]

theorem decode_op_on (op : w % 8 = 2) : decode c w = .command (.on (maskOperand c (argField c w))) := by
  simp only [decode, opField, op]

theorem decode_op_dPoints (op : w % 8 = 3) : decode c w = .command (.dPoints (maskOperand c (argField c w))) := by
  simp only [decode, opField, op]

theorem decode_op_values (op : w % 8 = 4) : decode c w = .command (.values (bytesOperand c (argField c w))) := by
  simp only [decode, opField, op]

theorem argField_testBit {i : Nat} (w : Nat) (inside : i < 4 * c.n) :
    (argField c w).testBit i = w.testBit (3 + i) := by
  have eight : w / 8 = w / 2 ^ 3 := rfl
  rw [argField, Nat.testBit_mod_two_pow, decide_eq_true inside, Bool.true_and, eight, Nat.testBit_div_two_pow,
    Nat.add_comm]

theorem maskOperand_length (arg : Nat) : (maskOperand c arg).length = c.n := by
  rw [maskOperand, List.length_map, List.length_range]

theorem bytesOperand_length (arg : Nat) : (bytesOperand c arg).length = c.dlen := by
  rw [bytesOperand, List.length_map, List.length_range]

/-- Element `i` of a word's mask (R86). -/
theorem maskOperand_argField_getElem? {i : Nat} (w : Nat) (inside : i < c.n) :
    (maskOperand c (argField c w))[i]? = some (w.testBit (3 + i)) := by
  rw [maskOperand, List.getElem?_map, List.getElem?_range inside, Option.map_some, argField_testBit w (by omega)]

/-- Element `j` of a word's byte list: its bits lie inside the argument field, which DLEN bytes fill (R86). -/
theorem bytesOperand_argField_getElem? {j : Nat} (w : Nat) (inside : j < c.dlen) :
    (bytesOperand c (argField c w))[j]? = some (BitVec.ofNat 8 (w / 2 ^ (8 * j + 3))) := by
  rw [bytesOperand, List.getElem?_map, List.getElem?_range inside, Option.map_some]
  refine congrArg some (BitVec.eq_of_getLsbD_eq fun i bit => ?_)
  have field : i + 8 * j < 4 * c.n := by
    have double := c.two_mul_dlen
    omega
  have position : 3 + (i + 8 * j) = i + (8 * j + 3) := by omega
  rw [BitVec.getLsbD_ofNat, BitVec.getLsbD_ofNat, Nat.testBit_div_two_pow, Nat.testBit_div_two_pow,
    argField_testBit w field, position]

end MutationWords

end Sys2Proof

namespace Sys2Proof.Machine
/-! The mutation commands (41_mutation.md): what each makes of a state that accepts it (R117 to R122), and that each
writes the whole of one array with a value of its own, which gives the equivalences of R120 and R123. -/

theorem ne_showFrame_of_target {i : Instr} (mutation : (targetOf i).isSome) : i ≠ .showFrame := by
  rintro rfl
  cases mutation

/-- A well-formed mutation accepted in `IDLE` completes, and changes the logical state alone (R116, R125). -/
theorem exec_of_mutation {i : Instr} {s : State} (ready : s.phase = .idle) (wf : i.wf s.cfg = true)
    (mutation : (targetOf i).isSome) : exec i s = .next (s.withLogical (s.logical.after s.cfg i)) := by
  obtain ⟨t, runs⟩ := exec_stops_only_on_length wf
  rw [runs, exec_mutation ready (ne_showFrame_of_target mutation) runs]

/-- The second of two mutations finds the configuration and the phase that the first found. -/
theorem execBoth_of_mutations {i j : Instr} {s : State} (ready : s.phase = .idle) (wf : i.wf s.cfg = true)
    (wf' : j.wf s.cfg = true) (mutation : (targetOf i).isSome) (mutation' : (targetOf j).isSome) :
    execBoth i j s = .next (s.withLogical ((s.logical.after s.cfg i).after s.cfg j)) := by
  rw [execBoth, exec_of_mutation ready wf mutation]
  have ready' : (s.withLogical (s.logical.after s.cfg i)).phase = .idle := ready
  exact exec_of_mutation ready' wf' mutation'

/-- The logical state `l` with the array `target` taken from `source`. -/
def Logical.put (l : Logical) (target : Target) (source : Logical) : Logical :=
  match target with
  | .on => { l with on := source.on }
  | .points => { l with points := source.points }
  | .data => { l with data := source.data }

/-- A mutation replaces its array, by a value in which what was there before has no part: `l'` is any logical state
(R120, R125). -/
theorem Logical.after_eq_put {i : Instr} {target : Target} (writes : targetOf i = some target) (c : Config)
    (l l' : Logical) : l.after c i = l.put target (l'.after c i) := by
  cases i with
  | showFrame => cases writes
  | allOn | allOff | on | dPoints | values =>
    cases writes
    rfl

theorem Logical.put_put (l : Logical) (target : Target) (first second : Logical) :
    (l.put target first).put target second = l.put target second := by
  cases target <;> rfl

theorem Logical.put_comm {target target' : Target} (different : target ≠ target') (l source source' : Logical) :
    (l.put target source).put target' source' = (l.put target' source').put target source := by
  cases target with
  | on => cases target' with
    | on => exact absurd rfl different
    | points | data => rfl
  | points => cases target' with
    | points => exact absurd rfl different
    | on | data => rfl
  | data => cases target' with
    | data => exact absurd rfl different
    | on | points => rfl

/-- Of two mutations of one array the later alone counts (R120). -/
theorem Logical.after_after {i j : Instr} {target : Target} (writes : targetOf i = some target)
    (writes' : targetOf j = some target) (c : Config) (l : Logical) : (l.after c i).after c j = l.after c j := by
  calc (l.after c i).after c j = (l.after c i).put target (l.after c j) := after_eq_put writes' c _ l
    _ = (l.put target (l.after c i)).put target (l.after c j) := by rw [← after_eq_put writes]
    _ = l.put target (l.after c j) := put_put ..
    _ = l.after c j := (after_eq_put writes' c l l).symm

/-- Two mutations, each writing what it would write without the other. -/
theorem Logical.after_after_eq_put {i j : Instr} {target target' : Target} (writes : targetOf i = some target)
    (writes' : targetOf j = some target') (c : Config) (l : Logical) :
    (l.after c i).after c j = (l.put target (l.after c i)).put target' (l.after c j) := by
  rw [← after_eq_put writes, ← after_eq_put writes']

/-- Mutations of different arrays commute (R123). -/
theorem Logical.after_comm {i j : Instr} {target target' : Target} (writes : targetOf i = some target)
    (writes' : targetOf j = some target') (different : target ≠ target') (c : Config) (l : Logical) :
    (l.after c i).after c j = (l.after c j).after c i := by
  rw [after_after_eq_put writes writes', after_after_eq_put writes' writes, put_comm different]

/-- ALLON and ALLOFF do not commute (R123), because there is a digit to differ in: N is at least 2 (R7). -/
theorem allOn_allOff_ne_allOff_allOn {s : State} (ready : s.phase = .idle) :
    execBoth .allOn .allOff s ≠ execBoth .allOff .allOn s := by
  rw [execBoth_of_mutations ready rfl rfl rfl rfl, execBoth_of_mutations ready rfl rfl rfl rfl]
  intro same
  have masks : List.replicate s.cfg.n false = List.replicate s.cfg.n true :=
    congrArg State.on (Host.Outcome.next.inj same)
  have someDigit : s.cfg.n ≠ 0 := by
    have half := s.cfg.dlen_pos
    have double := s.cfg.two_mul_dlen
    omega
  exact Bool.false_ne_true ((List.replicate_right_inj someDigit).1 masks)

/-- Settles O16: the claims on two mutations are those on the logical state, and ALLON and ALLOFF write what ON writes
with a mask of N equal bits. -/
theorem mutationsReplaceAndCommute : Obligations.MutationsReplaceAndCommute := by
  intro s ready
  have sized (b : Bool) : (Instr.on (List.replicate s.cfg.n b)).wf s.cfg = true :=
    beq_iff_eq.2 List.length_replicate
  refine ⟨?allOn, ?allOff, ?different, ?same, allOn_allOff_ne_allOff_allOn ready⟩
  case allOn => rw [exec_of_mutation ready rfl rfl, exec_of_mutation ready (sized true) rfl]; rfl
  case allOff => rw [exec_of_mutation ready rfl rfl, exec_of_mutation ready (sized false) rfl]; rfl
  case different =>
    intro i j wf wf' mutation mutation' different
    obtain ⟨target, writes⟩ := Option.isSome_iff_exists.1 mutation
    obtain ⟨target', writes'⟩ := Option.isSome_iff_exists.1 mutation'
    have arrays : target ≠ target' := by
      rintro rfl
      exact different (writes.trans writes'.symm)
    rw [execBoth_of_mutations ready wf wf' mutation mutation', execBoth_of_mutations ready wf' wf mutation' mutation,
      Logical.after_comm writes writes' arrays]
  case same =>
    intro i j wf wf' mutation same
    have mutation' : (targetOf j).isSome := same ▸ mutation
    obtain ⟨target, writes⟩ := Option.isSome_iff_exists.1 mutation
    rw [execBoth_of_mutations ready wf wf' mutation mutation', exec_of_mutation ready wf' mutation',
      Logical.after_after writes (same ▸ writes)]

/-- Settles O8. -/
theorem allOnSetsEveryDigit : Obligations.AllOnSetsEveryDigit :=
  ⟨fun _ _ op => decode_op_allOn op, fun _ ready => exec_of_mutation ready rfl rfl⟩

/-- Settles O9. -/
theorem allOffClearsEveryDigit : Obligations.AllOffClearsEveryDigit :=
  ⟨fun _ _ op => decode_op_allOff op, fun _ ready => exec_of_mutation ready rfl rfl⟩

/-- Settles O10: the operand is the decoder's mask of the word, read bit by bit. -/
theorem onReplacesTheDigitMask : Obligations.OnReplacesTheDigitMask :=
  ⟨fun _ w op => ⟨_, decode_op_on op, maskOperand_length _, fun _ => maskOperand_argField_getElem? w⟩,
    fun _ _ ready len => exec_of_mutation ready (beq_iff_eq.2 len) rfl⟩

/-- Settles O11: the operand is read as that of ON is. -/
theorem dPointsReplacesTheDecimalPoints : Obligations.DPointsReplacesTheDecimalPoints :=
  ⟨fun _ w op => ⟨_, decode_op_dPoints op, maskOperand_length _, fun _ => maskOperand_argField_getElem? w⟩,
    fun _ _ ready len => exec_of_mutation ready (beq_iff_eq.2 len) rfl⟩

/-- Settles O12: the operand is the decoder's byte list of the word, and the nibbles of a byte are those of R58. -/
theorem valuesReplacesTheData : Obligations.ValuesReplacesTheData :=
  ⟨fun _ w op => ⟨_, decode_op_values op, bytesOperand_length _, fun _ => bytesOperand_argField_getElem? w⟩,
    fun _ _ ready len => ⟨exec_of_mutation ready (beq_iff_eq.2 len) rfl,
      fun _ _ read => ⟨nibbleOf_low read, nibbleOf_high read⟩⟩⟩

end Sys2Proof.Machine

namespace Sys2Proof.Machine
/-! The closed form of the render pass, digit by digit (42_render.md R133 to R135). -/

/-- What a render step computes for a digit inside the arrays (R133). -/
theorem digit_of_reads {s : State} {p : Nat} {idx point entry : Byte} {isOn : Bool} (lit : s.on[p]? = some isOn)
    (pointRead : s.points[p]? = some point) (entryRead : s.cfg.segTable[idx.toNat]? = some entry) :
    digit s p idx = some (if isOn then point ||| entry else point) := by
  cases isOn with
  | false => simp only [digit, lit, pointRead, Bool.false_eq_true, if_false]
  | true => simp only [digit, lit, pointRead, entryRead, Option.map_some, if_true]

/-- The mask of the seven segments keeps a pattern without the decimal point's bit. -/
theorem and_7F_of_bit7 {p : Byte} (bit7 : p.getLsbD 7 = false) : p &&& 0x7F = p :=
  calc p &&& 0x7F = p &&& (p ||| (0x7F &&& ~~~p)) := by rw [or_complement7 bit7]
    _ = p := by rw [BitVec.and_or_distrib_left, BitVec.and_self, and_complement7]; exact BitVec.or_zero

/-- A legal points byte has no segment but the decimal point (R22, R41 item 1). -/
theorem point_and_7F {point : Byte} (legal : point = 0x00 ∨ point = 0x80) : point &&& 0x7F = 0x00 := by
  obtain rfl | rfl := legal <;> rfl

/-- Settles O20: the decimal point's bit comes from the points byte alone, because no table entry has it, and the seven
segments come from the table entry alone, because no legal points byte has one of them. -/
theorem digitByteIsPointOrGlyph : Obligations.DigitByteIsPointOrGlyph := by
  intro s p idx point entry isOn lit pointRead entryRead
  obtain ⟨-, -, -, -, noPoint⟩ := s.cfg.legal_parts
  have bit7 : entry.getLsbD 7 = false := noPoint entry (List.mem_of_getElem? entryRead)
  refine ⟨_, digit_of_reads lit pointRead entryRead, rfl, ?_, fun legal => ?_⟩
  · cases isOn with
    | false => rfl
    | true => rw [if_pos rfl, BitVec.getLsbD_or, bit7, Bool.or_false]
  · cases isOn with
    | false => exact point_and_7F legal
    | true =>
      rw [if_pos rfl, if_pos rfl, BitVec.and_or_distrib_right, point_and_7F legal, and_7F_of_bit7 bit7]
      exact BitVec.zero_or

/-- The closed form of a digit inside the arrays (R134). -/
theorem digitByte_of_reads {c : Config} {on : List Bool} {points : List Byte} {p : Nat} {isOn : Bool} {point : Byte}
    (lit : on[p]? = some isOn) (pointRead : points[p]? = some point) (data : List Byte) :
    digitByte c on points data p = point ||| (if isOn then tableRead c ((nibbleOf data p).getD 0) else 0x00) := by
  simp only [digitByte, List.getD_eq_getElem?_getD, lit, pointRead, Option.getD_some]

/-- The closed form reads one digit's `on`, `points` and nibble (R134). -/
theorem digitByte_congr {on on' : List Bool} {points points' data data' : List Byte} {p : Nat} (c : Config)
    (sameOn : on[p]? = on'[p]?) (samePoint : points[p]? = points'[p]?)
    (sameNibble : nibbleOf data p = nibbleOf data' p) :
    digitByte c on points data p = digitByte c on' points' data' p := by
  simp only [digitByte, List.getD_eq_getElem?_getD, sameOn, samePoint, sameNibble]

theorem render_getElem? {c : Config} {p : Nat} (inside : p < c.n) (on : List Bool) (points data : List Byte) :
    (render c on points data)[p]? = some (digitByte c on points data p) := by
  rw [render, List.getElem?_map, List.getElem?_range inside, Option.map_some]

/-- Settles O22. -/
theorem digitsDoNotInfluenceEachOther : Obligations.DigitsDoNotInfluenceEachOther := by
  intro c on on' points points' data data' p inside sameOn samePoint sameNibble
  rw [render_getElem? inside, render_getElem? inside, digitByte_congr c sameOn samePoint sameNibble]

/-- Settles O23: the table is not read for a digit that is off. -/
theorem decimalPointsShowOnDigitsThatAreOff : Obligations.DecimalPointsShowOnDigitsThatAreOff := by
  intro c data
  have pointAlone (p : Nat) (inside : p < c.n) :
      digitByte c (List.replicate c.n false) (List.replicate c.n 0x80) data p = 0x80 := by
    rw [digitByte_of_reads (List.getElem?_replicate_of_lt inside) (List.getElem?_replicate_of_lt inside)]
    exact BitVec.or_zero
  rw [render, List.map_congr_left fun p inside => pointAlone p (List.mem_range.1 inside), List.map_const',
    List.length_range]

end Sys2Proof.Machine

namespace Sys2Proof.Machine
/-! The render loop (42_render.md R132, R136, R138): DLEN turns of CTRL make the buffer the
closed form. -/

/-- A turn of CTRL inside the render pass is the render step (R147). -/
theorem runTurn_render {s : State} (rendering : s.phase = .render) (more : s.ri < s.cfg.dlen) (flushErr : Bool) :
    runTurn (.ctrl flushErr) s = renderStep s := by
  simp only [runTurn, ctrlTurn, rendering, more, if_true]

/-- The state after a render step that loads the byte `b` and leaves the buffer at `bits` (R132). -/
def State.renderedByte (s : State) (b : Byte) (bits : List Byte) : State :=
  { s with acc := { s.acc with accum := b }, bits := bits, ri := s.ri + 1 }

/-- A render step runs, and extends the rendered part of the buffer (R132, R136). -/
theorem renderStep_advances {s : State} (shaped : s.Shaped) (configured : s.acc.Configured)
    (rendering : s.phase = .render) (more : s.ri < s.cfg.dlen) (renderInv : s.RenderInv) :
    ∃ b bits, renderStep s = .next (s.renderedByte b bits) ∧ bits.length = s.cfg.n ∧
      (s.renderedByte b bits).RenderInv := by
  obtain ⟨b, x, y, read, low, high, runs⟩ := renderStep_runs shaped configured more
  obtain ⟨before, -⟩ := renderInv.1 rendering
  have ⟨_, lane0, lane1, _⟩ := configured
  rw [← laneResult_low, ← lane0] at low
  rw [← laneResult_high, ← lane1] at high
  have after := take_rendered_succ shaped configured more read low high before
  obtain ⟨-, -, -, length⟩ := shaped
  exact ⟨b, _, runs, by rw [List.length_set, List.length_set, length], fun _ => ⟨after, fun _ => read⟩,
    fun sending => absurd sending (by simp [State.renderedByte, rendering])⟩

/-- The render pass is complete when every data byte has been looked up: the buffer is the closed form and the
accumulator holds the last byte (R136, R138). -/
theorem rendered_of_complete {s : State} (length : s.bits.length = s.cfg.n) (rendering : s.phase = .render)
    (renderInv : s.RenderInv) (complete : s.ri = s.cfg.dlen) :
    s.bits = s.rendered ∧ s.data[s.cfg.dlen - 1]? = some s.acc.accum := by
  obtain ⟨done, loaded⟩ := renderInv.1 rendering
  rw [complete] at done loaded
  rw [s.cfg.two_mul_dlen, List.take_of_length_le length.le, List.take_of_length_le (rendered_length s).le] at done
  exact ⟨done, loaded s.cfg.dlen_pos⟩

/-- The turns of CTRL that are left of a render pass complete it and change nothing else, by induction on their
number. -/
theorem runFor_completes_render {s : State} (shaped : s.Shaped) (configured : s.acc.Configured)
    (rendering : s.phase = .render) (renderInv : s.RenderInv) {left : Nat} (count : s.ri + left = s.cfg.dlen)
    (rest : List Turn) :
    ∃ last, s.data[s.cfg.dlen - 1]? = some last ∧
      runFor left { s with sched := List.replicate left (.ctrl false) ++ rest } =
        .next { s with bits := s.rendered, acc := { s.acc with accum := last }, ri := s.cfg.dlen, sched := rest } := by
  induction left generalizing s with
  | zero =>
    obtain ⟨-, -, -, length⟩ := shaped
    have complete : s.ri = s.cfg.dlen := count
    obtain ⟨bits, last⟩ := rendered_of_complete length rendering renderInv complete
    refine ⟨s.acc.accum, last, ?_⟩
    rw [← bits, ← complete]
    rfl
  | succ left ih =>
    have more : s.ri < s.cfg.dlen := by omega
    obtain ⟨b, bits, runs, length, extended⟩ := renderStep_advances shaped configured rendering more renderInv
    obtain ⟨on, points, data, -⟩ := shaped
    rw [List.replicate_succ, List.cons_append, runFor_succ_listed ((runTurn_render rendering more false).trans runs)]
    exact ih (s := s.renderedByte b bits) ⟨on, points, data, length⟩ configured rendering extended
      ((Nat.succ_add_eq_add_succ s.ri left).trans count)

/-- The closed form, byte by byte, of a state whose arrays have their lengths (R134). -/
theorem rendered_bytes {s : State} (shaped : s.Shaped) {p : Nat} (inside : p < s.cfg.n) :
    ∃ isOn point b, s.on[p]? = some isOn ∧ s.points[p]? = some point ∧ s.data[p / 2]? = some b ∧
      s.rendered[p]? = some (point |||
        (if isOn then tableRead s.cfg (if p % 2 = 0 then lowNibble b else highNibble b) else 0x00)) := by
  obtain ⟨on, points, data, -⟩ := shaped
  have twice := s.cfg.two_mul_dlen
  have lit := List.getElem?_eq_getElem (on ▸ inside : p < s.on.length)
  have pointRead := List.getElem?_eq_getElem (points ▸ inside : p < s.points.length)
  have read := List.getElem?_eq_getElem (by omega : p / 2 < s.data.length)
  refine ⟨_, _, _, lit, pointRead, read, ?_⟩
  rw [rendered_getElem? inside, digitByte_of_reads lit pointRead, nibbleOf, read]
  rfl

/-- Settles O21: at `ri = 0` nothing is rendered yet, and all DLEN turns of the pass are left. -/
theorem renderPassComputesTheClosedForm : Obligations.RenderPassComputesTheClosedForm := by
  intro s rest shaped configured rendering start turns
  have renderInv : s.RenderInv :=
    ⟨fun _ => by simp [start], fun sending => absurd sending (by simp [rendering])⟩
  have count : s.ri + s.cfg.dlen = s.cfg.dlen := by rw [start, Nat.zero_add]
  obtain ⟨last, read, runs⟩ := runFor_completes_render shaped configured rendering renderInv count rest
  rw [← turns] at runs
  exact ⟨last, read, runs, fun _ inside => rendered_bytes shaped inside⟩

end Sys2Proof.Machine

namespace Sys2Proof.Machine
/-! The turns of a transfer (43_transfer.md R150 to R167): what the turn of CTRL comes to at each of its places, and the
turns of CHAN and PORT where they are enabled and where they are not. -/

section Places
variable {s : State}

theorem runTurn_complete (rendering : s.phase = .render) (complete : s.ri = s.cfg.dlen) (flushErr : Bool) :
    runTurn (.ctrl flushErr) s = .next (xferStart (latchLow s)) := by
  simp only [runTurn, ctrlTurn, rendering, complete, lt_irrefl, if_false, if_true]

theorem runTurn_dmaWait (sending : s.phase = .xmit) (sub : s.xsub = .dmaWait) (flushErr : Bool) :
    runTurn (.ctrl flushErr) s = .next (if s.chan.done then waitChan s else s) := by
  simp only [runTurn, ctrlTurn, sending, sub]
  split <;> rfl

theorem runTurn_flushWait (sending : s.phase = .xmit) (sub : s.xsub = .flushWait) (flushErr : Bool) :
    runTurn (.ctrl flushErr) s = .next (waitFlush flushErr s) := by
  simp only [runTurn, ctrlTurn, sending, sub]

theorem waitFlush_error (s : State) : waitFlush true s = raise .flushFail s := rfl

theorem waitFlush_empty (empty : s.portQ = []) : waitFlush false s = latchHighReturn s := by
  simp [waitFlush, State.portFlushed, empty]

theorem waitFlush_queued (queued : s.portQ ≠ []) : waitFlush false s = s := by
  simp [waitFlush, State.portFlushed, queued]

theorem chanMove_of_enabled (enabled : s.enabled .chan = true) {b : Byte} (read : s.bits[s.chan.idx]? = some b) :
    chanMove s = .next { s with
      portQ := s.portQ ++ [b],
      chan := { active := true, idx := s.chan.idx + 1, done := decide (s.chan.idx + 1 = s.cfg.n) } } := by
  obtain ⟨active, running, -, -⟩ := (enabled_chan s).1 enabled
  have on : chanMoveEnabled s = true := enabled
  simp [chanMove, on, memRead, read, portPush, active, running, beq_eq_decide]

theorem chanMove_of_disabled (off : ¬ s.enabled .chan = true) : chanMove s = .next s :=
  if_neg off

theorem portShift_empty (empty : s.portQ = []) : portShift s = s := by
  simp only [portShift, empty]

theorem portShift_queued {b : Byte} {rest : List Byte} (queued : s.portQ = b :: rest) :
    portShift s = { s with portQ := rest, wire := s.wire ++ [.byte b] } := by
  simp only [portShift, queued, wireEmit]

end Places

/-- A step is the turn that comes next, on the state with that turn used up (R20). -/
theorem step_turn {s : State} {turn : Turn} (next : s.nextTurn = turn) : step s = runTurn turn s.spendTurn := by
  rw [step, next]

/-- Settles O14. -/
theorem showTakesTheResources : Obligations.ShowTakesTheResources :=
  ⟨fun _ _ op => decode_show_iff.2 op, fun s ready => ⟨take s, if_pos ready, rfl, rfl⟩⟩

/-- Settles O25: LATCH_LOW and XFER_START are the one step of CTRL there (R155). -/
theorem completeRenderStartsTheTransfer : Obligations.CompleteRenderStartsTheTransfer := by
  intro s flushErr rendering turn complete
  rw [step_turn turn, runTurn_complete (by simpa using rendering) (by simpa using complete), xferStart, latchLow,
    wireEmit, spendTurn_wire]

/-- Settles O27. -/
theorem waitChanHoldsUntilDone : Obligations.WaitChanHoldsUntilDone := by
  intro s flushErr sending sub turn
  rw [step_turn turn, runTurn_dmaWait (by simpa using sending) (by simpa using sub), spendTurn_chan]
  refine ⟨fun running => ?_, fun finished => ?_⟩
  · rw [running, if_neg Bool.false_ne_true]
  · rw [finished, if_pos rfl, waitChan]

/-- Settles O28: the three cases of WAIT_FLUSH, the flush error first (R187). -/
theorem waitFlushReleasesOrFaults : Obligations.WaitFlushReleasesOrFaults := by
  intro s flushErr sending sub turn
  rw [step_turn turn, runTurn_flushWait (by simpa using sending) (by simpa using sub)]
  refine ⟨?error, ?held, ?released⟩
  case error =>
    rintro rfl
    rw [waitFlush_error, raise]
  case held =>
    rintro rfl queued
    rw [waitFlush_queued (by simpa using queued)]
  case released =>
    rintro rfl empty
    rw [waitFlush_empty (by simpa using empty)]
    exact ⟨_, rfl, by rw [latchHighReturn, wireEmit, spendTurn_wire], rfl, rfl⟩

/-- Settles O29: the four conditions are those under which CHAN has an enabled step. -/
theorem chanMovePushesTheNextByte : Obligations.ChanMovePushesTheNextByte := by
  intro s turn
  rw [step_turn turn, runTurn]
  refine ⟨fun active running more room b read => ?_, fun blocked => ?_⟩
  · have enabled : s.spendTurn.enabled .chan = true := (enabled_chan _).2 (by simp [active, running, more, room])
    rw [chanMove_of_enabled enabled (b := b) (by simpa using read)]
    simp
  · refine chanMove_of_disabled fun enabled => ?_
    obtain ⟨active, running, more, room⟩ := (enabled_chan _).1 enabled
    rw [spendTurn_chan] at active running more
    rw [spendTurn_cfg] at more room
    rw [spendTurn_portQ] at room
    obtain off | done | last | full := blocked
    · exact Bool.false_ne_true (off.symm.trans active)
    · exact Bool.false_ne_true (running.symm.trans done)
    · omega
    · omega

/-- Settles O30. -/
theorem portShiftsTheHeadInEveryPhase : Obligations.PortShiftsTheHeadInEveryPhase := by
  intro s turn
  rw [step_turn turn, runTurn]
  refine ⟨fun b rest queued => ?_, fun empty => ?_⟩
  · rw [portShift_queued (by simpa using queued), spendTurn_wire]
  · rw [portShift_empty (by simpa using empty)]

end Sys2Proof.Machine

namespace Sys2Proof.Machine
/-! Noninterference (43_transfer.md R175): the turns read nothing of what is displayed but its lengths. -/

/-- Two outcomes on one control path: where both are next states, these agree on the control state. -/
abbrev SamePath (o o' : Host.Outcome State Fault Refusal) : Prop :=
  ∀ t t', o = .next t → o' = .next t' → SameControl t t'

section TwoStates
variable {s s' : State}

theorem samePath_next (same : SameControl s s') : SamePath (.next s) (.next s') := by
  rintro t t' ⟨⟩ ⟨⟩
  exact same

theorem SameControl.raise (same : SameControl s s') (cause : Cause) :
    SameControl (raise cause s) (raise cause s') := by
  simp [SameControl, same]

theorem SameControl.pending (same : SameControl s s') (words : List Nat) :
    SameControl { s with pending := words } { s' with pending := words } := by
  simp [SameControl, same]

theorem SameControl.take (same : SameControl s s') : SameControl (take s) (take s') := by
  simp [SameControl, same]

theorem SameControl.renderedByte (same : SameControl s s') (b b' : Byte) (bits bits' : List Byte) :
    SameControl (s.renderedByte b bits) (s'.renderedByte b' bits') := by
  simp [SameControl, State.renderedByte, same]

theorem SameControl.start (same : SameControl s s') :
    SameControl (xferStart (latchLow s)) (xferStart (latchLow s')) := by
  simp [SameControl, same]

theorem SameControl.waitChan (same : SameControl s s') : SameControl (waitChan s) (waitChan s') := by
  simp [SameControl, same]

theorem SameControl.latchHighReturn (same : SameControl s s') :
    SameControl (latchHighReturn s) (latchHighReturn s') := by
  simp [SameControl, same]

theorem SameControl.spendTurn (same : SameControl s s') : SameControl s.spendTurn s'.spendTurn := by
  have ⟨_, _, _, _, _, _, _, _, _, _, _, sched, tick⟩ := same
  unfold State.spendTurn
  rw [← sched]
  cases s.sched <;> simp [SameControl, same]

theorem SameControl.nextTurn (same : SameControl s s') : s.nextTurn = s'.nextTurn := by
  have ⟨_, _, _, _, _, _, _, _, _, _, _, sched, tick⟩ := same
  rw [State.nextTurn, State.nextTurn, sched, tick]

/-- The two states' queues hold equally many bytes (R36). -/
theorem SameControl.queue (same : SameControl s s') :
    (s.portQ = [] ∧ s'.portQ = []) ∨
      ∃ b rest b' rest', s.portQ = b :: rest ∧ s'.portQ = b' :: rest' ∧ rest.length = rest'.length := by
  have ⟨_, _, _, _, _, _, _, _, queued, _⟩ := same
  cases q : s.portQ <;> cases q' : s'.portQ <;> simp_all

/-- A mutation writes what is displayed; of SHOW the accepting step is TAKE. -/
theorem exec_samePath (same : SameControl s s') (ready : s.phase = .idle) (i : Instr) :
    SamePath (exec i s) (exec i s') := by
  have ⟨_, phase, _⟩ := same
  have ready' : s'.phase = .idle := phase ▸ ready
  intro t t' runs runs'
  obtain rfl | mutation := eq_or_ne i .showFrame
  · rw [exec_show ready runs, exec_show ready' runs']
    exact same.take
  · rw [exec_mutation ready mutation runs, exec_mutation ready' mutation runs']
    exact same

theorem acceptWord_samePath (same : SameControl s s') (ready : s.phase = .idle) (w : Nat) (rest : List Nat) :
    SamePath (acceptWord w rest s) (acceptWord w rest s') := by
  have ⟨cfg, _⟩ := same
  cases decoded : decode s.cfg w with
  | command i =>
    rw [acceptWord_command decoded, acceptWord_command (cfg ▸ decoded)]
    exact exec_samePath (same.pending rest) ready i
  | illegal op =>
    rw [acceptWord_illegal decoded, acceptWord_illegal (cfg ▸ decoded)]
    exact samePath_next ((same.pending rest).raise _)

/-- A render step inside the arrays runs, whatever the bytes are (R132). -/
theorem renderStep_samePath (inv : s.Inv) (inv' : s'.Inv) (same : SameControl s s') (more : s.ri < s.cfg.dlen) :
    SamePath (renderStep s) (renderStep s') := by
  have ⟨cfg, _, _, ri, _⟩ := same
  obtain ⟨⟨shaped, -, configured, -, -⟩, -⟩ := (inv_iff_atLocation s).1 inv
  obtain ⟨⟨shaped', -, configured', -, -⟩, -⟩ := (inv_iff_atLocation s').1 inv'
  obtain ⟨b, x, y, -, -, -, runs⟩ := renderStep_runs shaped configured more
  obtain ⟨b', x', y', -, -, -, runs'⟩ := renderStep_runs shaped' configured' (ri ▸ cfg ▸ more)
  rw [runs, runs']
  exact samePath_next (same.renderedByte b b' _ _)

theorem waitFlush_sameControl (same : SameControl s s') (flushErr : Bool) :
    SameControl (waitFlush flushErr s) (waitFlush flushErr s') := by
  cases flushErr with
  | true => exact same.raise _
  | false =>
    obtain ⟨empty, empty'⟩ | ⟨b, rest, b', rest', queued, queued', -⟩ := same.queue
    · rw [waitFlush_empty empty, waitFlush_empty empty']
      exact same.latchHighReturn
    · rw [waitFlush_queued (by simp [queued]), waitFlush_queued (by simp [queued'])]
      exact same

theorem ctrlTurn_samePath (inv : s.Inv) (inv' : s'.Inv) (same : SameControl s s') (flushErr : Bool) :
    SamePath (ctrlTurn flushErr s) (ctrlTurn flushErr s') := by
  have ⟨cfg, phase, xsub, ri, _, _, _, chan, _, _, pending, _⟩ := same
  unfold ctrlTurn
  rw [← phase, ← xsub, ← ri, ← cfg, ← chan, ← pending]
  split
  · split
    · exact samePath_next same
    · exact acceptWord_samePath same ‹_› _ _
  · split_ifs with more complete
    · exact renderStep_samePath inv inv' same more
    · exact samePath_next same.start
    · exact samePath_next same
  · split
    · split_ifs
      · exact samePath_next same.waitChan
      · exact samePath_next same
    · exact samePath_next (waitFlush_sameControl same flushErr)
  · exact samePath_next same

theorem chanMove_samePath (inv : s.Inv) (inv' : s'.Inv) (same : SameControl s s') :
    SamePath (chanMove s) (chanMove s') := by
  have alike : s.enabled .chan = s'.enabled .chan := by
    simp [State.enabled, chanMoveEnabled, same]
  by_cases enabled : s.enabled .chan = true
  · obtain ⟨⟨⟨-, -, -, length⟩, -, -, -, -⟩, -⟩ := (inv_iff_atLocation s).1 inv
    obtain ⟨⟨⟨-, -, -, length'⟩, -, -, -, -⟩, -⟩ := (inv_iff_atLocation s').1 inv'
    have enabled' : s'.enabled .chan = true := alike ▸ enabled
    obtain ⟨-, -, more, -⟩ := (enabled_chan s).1 enabled
    obtain ⟨-, -, more', -⟩ := (enabled_chan s').1 enabled'
    rw [chanMove_of_enabled enabled (List.getElem?_eq_getElem (by omega)),
      chanMove_of_enabled enabled' (List.getElem?_eq_getElem (by omega))]
    exact samePath_next (by simp [SameControl, same])
  · rw [chanMove_of_disabled enabled, chanMove_of_disabled (alike ▸ enabled)]
    exact samePath_next same

theorem portShift_sameControl (same : SameControl s s') : SameControl (portShift s) (portShift s') := by
  obtain ⟨empty, empty'⟩ | ⟨b, rest, b', rest', queued, queued', length⟩ := same.queue
  · rw [portShift_empty empty, portShift_empty empty']
    exact same
  · rw [portShift_queued queued, portShift_queued queued']
    simp [SameControl, same, length]

theorem runTurn_samePath (inv : s.Inv) (inv' : s'.Inv) (same : SameControl s s') (turn : Turn) :
    SamePath (runTurn turn s) (runTurn turn s') := by
  cases turn with
  | host w => exact samePath_next (by simp [SameControl, same])
  | ctrl flushErr => exact ctrlTurn_samePath inv inv' same flushErr
  | chan => exact chanMove_samePath inv inv' same
  | port => exact samePath_next (portShift_sameControl same)

end TwoStates

/-- Settles O48: the two states have the same turn next, and each agent's turn keeps the agreement. -/
theorem controlPathIgnoresWhatIsDisplayed : Obligations.ControlPathIgnoresWhatIsDisplayed := by
  intro s s' t t' inv inv' same stepped stepped'
  rw [step, ← same.nextTurn] at stepped'
  exact runTurn_samePath ((spendTurn_inv s).2 inv) ((spendTurn_inv s').2 inv') same.spendTurn s.nextTurn t t' stepped
    stepped'

end Sys2Proof.Machine

namespace Sys2Proof.Machine
/-! What leaves the block, and when (43_transfer.md R152, R168, R169, R190). -/

/-- A transfer starts: the latch falls, or the channel becomes active (R152). -/
abbrev State.Starts (s t : State) : Prop :=
  s.latch = true ∧ t.latch = false ∨ s.chan.active = false ∧ t.chan.active = true

theorem not_starts_of_same {s t : State} (latch : t.latch = s.latch) (active : t.chan.active = s.chan.active) :
    ¬ s.Starts t := by
  simp [State.Starts, latch, active]

/-- Of the moves of CTRL, LATCH_LOW with XFER_START alone starts a transfer (R155). -/
theorem ctrlMove_starts {flushErr : Bool} {s t : State} (move : CtrlMove flushErr s t) (starts : s.Starts t) :
    s.phase = .render ∧ s.ri = s.cfg.dlen ∧ t.bits = s.bits := by
  cases move with
  | started rendering complete => exact ⟨rendering, complete, rfl⟩
  | command _ _ _ _ _ _ _ done => cases done <;> exact absurd starts (not_starts_of_same rfl rfl)
  | chanSeen => simp [State.Starts] at starts
  | flushed => simp [State.Starts] at starts
  | _ => exact absurd starts (not_starts_of_same rfl rfl)

/-- CHAN moves only where the channel is active already (R164). -/
theorem chanMove_chan_active {s t : State} (moves : chanMove s = .next t) : t.chan.active = s.chan.active := by
  obtain ⟨-, rfl⟩ | ⟨b, active, -, -, -, -, rfl⟩ := chanMove_next moves
  · rfl
  · exact active.symm

theorem portShift_chan (s : State) : (portShift s).chan = s.chan := by
  obtain ⟨-, same⟩ | ⟨b, rest, -, same⟩ := portShift_cases s <;> rw [same]

/-- A step that starts a transfer leaves the buffer as the complete render pass made it. -/
theorem step_starts {s t : State} (stepped : step s = .next t) (starts : s.Starts t) :
    s.phase = .render ∧ s.ri = s.cfg.dlen ∧ t.bits = s.bits := by
  have starts : s.spendTurn.Starts t := by rwa [State.Starts, spendTurn_latch, spendTurn_chan]
  rw [← spendTurn_phase s, ← spendTurn_ri s, ← spendTurn_cfg s, ← spendTurn_bits s]
  obtain ⟨w, -, rfl⟩ | ⟨flushErr, -, move⟩ | ⟨-, moves⟩ | ⟨-, rfl⟩ := step_next stepped
  · exact absurd starts (not_starts_of_same rfl rfl)
  · exact ctrlMove_starts move starts
  · exact absurd starts (not_starts_of_same (chanMove_same moves).latch (chanMove_chan_active moves))
  · exact absurd starts
      (not_starts_of_same (portShift_same _).latch (congrArg Chan.active (portShift_chan _)))

/-- Settles O26: with the pass complete, the buffer's part of the invariant speaks of the whole buffer. -/
theorem nothingIsSentBeforeTheRenderIsComplete : Obligations.NothingIsSentBeforeTheRenderIsComplete := by
  intro s t stepped starts
  obtain ⟨rendering, complete, kept⟩ := step_starts stepped starts
  refine ⟨rendering, complete, ?_⟩
  rintro ⟨⟨⟨-, -, -, length⟩, -⟩, -, renderInv⟩
  obtain ⟨bits, -⟩ := rendered_of_complete length rendering renderInv complete
  exact kept.trans bits

/-- CTRL logs edges of the latch only (R153, R160). -/
theorem ctrlMove_wire {flushErr : Bool} {s t : State} (move : CtrlMove flushErr s t) :
    t.wire = s.wire ∨ t.wire = s.wire ++ [.latchFall] ∨ t.wire = s.wire ++ [.latchRise] := by
  cases move with
  | started => exact .inr (.inl rfl)
  | flushed => exact .inr (.inr rfl)
  | command _ _ _ _ _ _ _ done => cases done <;> exact .inl rfl
  | _ => exact .inl rfl

theorem chanMove_wire {s t : State} (moves : chanMove s = .next t) : t.wire = s.wire := by
  obtain ⟨-, rfl⟩ | ⟨b, -, -, -, -, -, rfl⟩ := chanMove_next moves <;> rfl

/-- A step that logs a byte is PORT's, with a byte queued (R167). -/
theorem step_logs_byte {s t : State} {b : Byte} (stepped : step s = .next t) (logs : t.wire = s.wire ++ [.byte b]) :
    s.portQ ≠ [] ∧ t = portShift s.spendTurn := by
  rw [← spendTurn_wire s] at logs
  obtain ⟨w, -, rfl⟩ | ⟨flushErr, -, move⟩ | ⟨-, moves⟩ | ⟨-, rfl⟩ := step_next stepped
  · simp at logs
  · obtain same | falls | rises := ctrlMove_wire move
    · simp [same] at logs
    · simp [falls] at logs
    · simp [rises] at logs
  · simp [chanMove_wire moves] at logs
  · refine ⟨fun empty => ?_, rfl⟩
    rw [portShift_empty ((spendTurn_portQ s).trans empty)] at logs
    simp at logs

/-- Settles O33: a byte that is logged was queued, which the invariants allow while the latch is low only. -/
theorem bytesLeaveOnlyWhileTheLatchIsLow : Obligations.BytesLeaveOnlyWhileTheLatchIsLow := by
  rintro s t b ⟨inv, wireInv, -⟩ stepped logs
  obtain ⟨queued, rfl⟩ := step_logs_byte stepped logs
  have low : s.latch = false := latch_low_of_queued inv wireInv queued
  have same := (spendTurn_same s).trans (portShift_same s.spendTurn)
  exact ⟨low, same.latch.trans low, fun safe => sending_of_queued inv wireInv safe queued⟩

/-- What every step keeps holds at the end of a run if it holds at its start. -/
theorem runFor_keeps {P : State → Prop} (keeps : ∀ u v, P u → step u = .next v → P v) {k : Nat} {s t : State}
    (start : P s) (runs : runFor k s = .next t) : P t := by
  induction k generalizing s with
  | zero =>
    cases runs
    exact start
  | succ k ih =>
    rw [runFor_succ] at runs
    cases stepped : step s with
    | next u =>
      rw [stepped] at runs
      exact ih (keeps s u start stepped) runs
    | fault r | refused r =>
      rw [stepped] at runs
      cases runs

/-- What HOST and PORT do of the state `s` that CTRL has left in `FAULT`: words are offered, bytes go out (R168). -/
abbrev State.Drains (s t : State) : Prop :=
  (∃ words, t.pending = s.pending ++ words) ∧ ∃ bytes : List Byte, t.wire = s.wire ++ bytes.map .byte

theorem State.Drains.refl (s : State) : s.Drains s := ⟨⟨[], by simp⟩, [], by simp⟩

theorem State.Drains.trans {s t u : State} (first : s.Drains t) (second : t.Drains u) : s.Drains u := by
  obtain ⟨⟨words, offered⟩, bytes, sent⟩ := first
  obtain ⟨⟨words', offered'⟩, bytes', sent'⟩ := second
  exact ⟨⟨words ++ words', by rw [offered', offered, List.append_assoc]⟩, bytes ++ bytes',
    by rw [sent', sent, List.map_append, List.append_assoc]⟩

theorem portShift_drains (s : State) : s.Drains (portShift s) := by
  refine ⟨⟨[], by rw [portShift_pending, List.append_nil]⟩, ?_⟩
  obtain ⟨-, same⟩ | ⟨b, rest, -, same⟩ := portShift_cases s <;> rw [same]
  · exact ⟨[], (List.append_nil _).symm⟩
  · exact ⟨[b], rfl⟩

theorem step_drains_of_fault {s t : State} (faulted : s.phase = .fault) (stepped : step s = .next t) : s.Drains t := by
  have spent : s.Drains s.spendTurn := by
    rw [State.Drains, spendTurn_pending, spendTurn_wire]
    exact State.Drains.refl s
  refine spent.trans ?_
  obtain ⟨w, -, rfl⟩ | ⟨flushErr, -, move⟩ | ⟨-, moves⟩ | ⟨-, rfl⟩ := step_next stepped
  · exact ⟨⟨[w], by rw [spendTurn_pending]⟩, [], (List.append_nil _).symm⟩
  · rw [ctrlMove_of_fault ((spendTurn_phase s).trans faulted) move]
    exact State.Drains.refl _
  · rw [State.Drains, chanMove_pending moves, chanMove_wire moves]
    exact State.Drains.refl _
  · exact portShift_drains _

/-- Settles O37: the frame of a run from `FAULT`, and what drains in it. -/
theorem faultIsFinal : Obligations.FaultIsFinal := by
  intro s t k faulted runs
  have same : s.SameButTransfer t := runFor_same_of_fault faulted runs
  have final : t.phase = .fault := same.phase.trans faulted
  have ⟨_, offered, sent⟩ : t.phase = .fault ∧ s.Drains t :=
    runFor_keeps (P := fun u => u.phase = .fault ∧ s.Drains u)
      (fun _ _ ⟨faulted, drained⟩ stepped =>
        ⟨(step_same_of_fault faulted stepped).phase.trans faulted,
          drained.trans (step_drains_of_fault faulted stepped)⟩)
      ⟨faulted, State.Drains.refl s⟩ runs
  exact ⟨final, same.cause, same.on, same.points, same.data, same.bits, same.latch, same.owner, same.acc, same.xsub,
    same.ri, by rw [State.cmdReady, final]; rfl, offered, sent⟩

end Sys2Proof.Machine

namespace Sys2Proof.Machine
/-! The end of a SHOW (43_transfer.md R161): what LATCH_HIGH_RETURN leaves on display, and that the state with which it
returns to `IDLE` differs from the one that accepted the SHOW as R161 says. -/

/-- The buffer and the accumulator as a SHOW leaves them in `IDLE` (R161). -/
structure State.Displays (s : State) : Prop where
  bits : s.bits = s.rendered
  last : s.data[s.cfg.dlen - 1]? = some s.acc.accum
  xsub : s.xsub = .dmaWait

/-- The turn that brings a busy block back to `IDLE` is LATCH_HIGH_RETURN, after which the SHOW is on display (R28). -/
theorem displays_of_return {turn : Turn} {s t : State} (renderInv : s.RenderInv) (busy : s.phase ≠ .idle)
    (moves : runTurn turn s = .next t) (idle : t.phase = .idle) : t.Displays := by
  have notTransfer (same : s.SameButTransfer t) : False := busy (same.phase.symm.trans idle)
  cases turn with
  | host w =>
    cases moves
    exact absurd idle busy
  | ctrl flushErr =>
    cases ctrlTurn_move moves with
    | flushed sending =>
      obtain ⟨bits, last⟩ := renderInv.2 sending
      exact ⟨bits, last, rfl⟩
    | noWord ready | command ready | illegal ready => exact absurd ready busy
    | rendered | pastTheEnd | chanAwaited | chanSeen | flushAwaited | stopped => exact absurd idle busy
    | unconfigured | started | flushFailed => cases idle
  | chan => exact (notTransfer (chanMove_same moves)).elim
  | port =>
    cases moves
    exact (notTransfer (portShift_same s)).elim

/-- In `IDLE` CHAN and PORT have no enabled step, and CTRL has one if a word is offered (R147). -/
theorem enabled_of_idle {agent : FairAgent} {s : State} (inv : s.Inv) (idle : s.phase = .idle)
    (ready : s.enabled agent = true) : agent = .ctrl ∧ s.pending ≠ [] := by
  obtain ⟨-, location⟩ := (inv_iff_atLocation s).1 inv
  obtain ⟨-, -, ⟨inactive, -⟩, empty, -⟩ := (atLocation_idle idle).1 location
  cases agent with
  | ctrl => exact ⟨rfl, by simpa [enabled_ctrl, idle] using ready⟩
  | chan => simp [enabled_chan, inactive] at ready
  | port => exact absurd empty ((enabled_port s).1 ready)

/-- The words that a turn adds to the pending ones. -/
def offeredBy : Turn → List Nat
  | .host w => [w]
  | _ => []

theorem offeredBy_of_agent {turn : Turn} {agent : FairAgent} (agentOf : fairAgentOf turn = some agent) :
    offeredBy turn = [] := by
  cases turn with
  | host w => cases agentOf
  | ctrl | chan | port => rfl

/-- Outside `IDLE` no word is taken (R162). -/
theorem runTurn_pending {turn : Turn} {s t : State} (busy : s.phase ≠ .idle) (moves : runTurn turn s = .next t) :
    t.pending = s.pending ++ offeredBy turn := by
  cases turn with
  | host w =>
    cases moves
    rfl
  | ctrl flushErr =>
    obtain ⟨-, -, -, pending⟩ := ctrlMove_of_busy busy (ctrlTurn_move moves)
    exact pending.trans (List.append_nil _).symm
  | chan => exact (chanMove_pending moves).trans (List.append_nil _).symm
  | port =>
    cases moves
    exact (portShift_pending s).trans (List.append_nil _).symm

/-- The turn of CTRL that accepts a SHOW is TAKE (R150). -/
theorem runTurn_show {s : State} {w : Nat} {rest : List Nat} (idle : s.phase = .idle) (offered : s.pending = w :: rest)
    (decoded : decode s.cfg w = .command .showFrame) (flushErr : Bool) :
    runTurn (.ctrl flushErr) s = .next (take { s with pending := rest }) := by
  simp only [runTurn, ctrlTurn, idle, offered]
  rw [acceptWord_command decoded]
  exact if_pos idle

theorem ctrlMove_inputs {flushErr : Bool} {s t : State} (move : CtrlMove flushErr s t) :
    t.sched = s.sched ∧ t.tick = s.tick := by
  cases move with
  | command _ _ _ _ _ _ _ done => cases done <;> exact ⟨rfl, rfl⟩
  | _ => exact ⟨rfl, rfl⟩

/-- No turn touches the turns to come (R38). -/
theorem runTurn_inputs {turn : Turn} {s t : State} (moves : runTurn turn s = .next t) :
    t.sched = s.sched ∧ t.tick = s.tick := by
  cases turn with
  | host w =>
    cases moves
    exact ⟨rfl, rfl⟩
  | ctrl flushErr => exact ctrlMove_inputs (ctrlTurn_move moves)
  | chan => obtain ⟨-, rfl⟩ | ⟨b, -, -, -, -, -, rfl⟩ := chanMove_next moves <;> exact ⟨rfl, rfl⟩
  | port =>
    cases moves
    obtain ⟨-, same⟩ | ⟨b, rest, -, same⟩ := portShift_cases s <;> rw [same] <;> exact ⟨rfl, rfl⟩

theorem rendered_of_logical {s t : State} (cfg : t.cfg = s.cfg) (logical : t.logical = s.logical) :
    t.rendered = s.rendered := by
  injection logical with on points data
  rw [State.rendered, State.rendered, cfg, on, points, data]

/-- Configured accelerators differ in the accumulator only (R32). -/
theorem Accel.Configured.eq {a b : Accel} (configured : a.Configured) (configured' : b.Configured) :
    b = { a with accum := b.accum } := by
  obtain ⟨done, lane0, lane1, shared, accum⟩ := a
  obtain ⟨done', lane0', lane1', shared', accum'⟩ := b
  obtain ⟨rfl, rfl, rfl, rfl⟩ := configured
  obtain ⟨rfl, rfl, rfl, rfl⟩ := configured'
  rfl

theorem Chan.AtRest.eq {c d : Chan} (resting : c.AtRest) (resting' : d.AtRest) : d = c := by
  obtain ⟨active, idx, done⟩ := c
  obtain ⟨active', idx', done'⟩ := d
  obtain ⟨rfl, rfl, rfl⟩ := resting
  obtain ⟨rfl, rfl, rfl⟩ := resting'
  rfl

/-- Two idle states with one logical state, the second of which has a SHOW on display: all in which they can differ
(R161). -/
theorem eq_of_displays {s t : State} (inv : s.Inv) (inv' : t.Inv) (idle : s.phase = .idle) (idle' : t.phase = .idle)
    (cfg : t.cfg = s.cfg) (logical : t.logical = s.logical) (display : t.Displays) :
    t = { s with
      bits := s.rendered, acc := { s.acc with accum := t.acc.accum }, xsub := .dmaWait,
      wire := t.wire, pending := t.pending, sched := t.sched, tick := t.tick } := by
  obtain ⟨⟨-, -, configured, -, -⟩, location⟩ := (inv_iff_atLocation s).1 inv
  obtain ⟨⟨-, -, configured', -, -⟩, location'⟩ := (inv_iff_atLocation t).1 inv'
  obtain ⟨owner, latch, chan, queue, ri, cause⟩ := (atLocation_idle idle).1 location
  obtain ⟨owner', latch', chan', queue', ri', cause'⟩ := (atLocation_idle idle').1 location'
  have bits : t.bits = s.rendered := display.bits.trans (rendered_of_logical cfg logical)
  have xsub : t.xsub = .dmaWait := display.xsub
  have acc := configured.eq configured'
  injection logical with on points data
  cases t
  rw [State.mk.injEq]
  exact ⟨cfg, on, points, data, bits, idle'.trans idle.symm, xsub, ri'.trans ri.symm, cause'.trans cause.symm,
    latch'.trans latch.symm, acc, owner'.trans owner.symm, chan.eq chan', queue'.trans queue.symm, rfl, rfl, rfl, rfl⟩

end Sys2Proof.Machine

namespace Sys2Proof.Machine
/-! A SHOW in fair rounds (43_transfer.md R161; log 13). -/

/-- What every one of the listed turns keeps. -/
theorem Takes.keeps {P : State → Prop} {turns : List Turn} {s t : State} (takes : Takes turns s t)
    (keeps : ∀ turn ∈ turns, ∀ u v, P u → runTurn turn u = .next v → P v) (start : P s) : P t := by
  induction takes with
  | nil => exact start
  | cons moves _ ih =>
    obtain ⟨first, rest⟩ := List.forall_mem_cons.1 keeps
    exact ih rest (first _ _ start moves)

/-- A SHOW has been accepted and no word is offered; where the block is idle again, the SHOW is on display. -/
structure State.ShowsLast (s : State) : Prop where
  full : s.FullInv
  pending : s.pending = []
  display : s.phase = .idle → s.Displays

/-- Quiet turns finish the SHOW and then change nothing. -/
theorem quietTurn_keeps_showsLast {turn : Turn} (quiet : QuietTurn turn) {s t : State} (shows : s.ShowsLast)
    (moves : runTurn turn s = .next t) : t.ShowsLast := by
  obtain ⟨agent, agentOf⟩ := quietTurn_agent quiet
  by_cases idle : s.phase = .idle
  · have off : ¬ s.enabled agent = true := fun ready =>
      (enabled_of_idle shows.full.1 idle ready).2 shows.pending
    rwa [runTurn_of_disabled agentOf (quietTurn_drawsNoError quiet s) off moves]
  · refine ⟨runTurn_keeps_fullInv shows.full moves, ?_, displays_of_return shows.full.2.2 idle moves⟩
    rw [runTurn_pending idle moves, shows.pending, offeredBy_of_agent agentOf, List.append_nil]

/-- With one SHOW offered, a quiet turn changes nothing or accepts it. -/
theorem quietTurn_starts_show {turn : Turn} (quiet : QuietTurn turn) {s t : State} {w : Nat} (full : s.FullInv)
    (idle : s.phase = .idle) (offered : s.pending = [w]) (decoded : decode s.cfg w = .command .showFrame)
    (moves : runTurn turn s = .next t) : t = s ∨ t.ShowsLast := by
  obtain ⟨agent, agentOf⟩ := quietTurn_agent quiet
  by_cases ready : s.enabled agent = true
  · obtain ⟨rfl, -⟩ := enabled_of_idle full.1 idle ready
    obtain rfl | rfl | rfl := quiet
    · have fullEnd := runTurn_keeps_fullInv full moves
      rw [runTurn_show idle offered decoded] at moves
      cases moves
      exact .inr ⟨fullEnd, rfl, nofun⟩
    · cases agentOf
    · cases agentOf
  · exact .inl (runTurn_of_disabled agentOf (quietTurn_drawsNoError quiet s) ready moves)

/-- When quiet turns have used up the one SHOW that was offered, it has been shown. -/
theorem Takes.showsLast {turns : List Turn} {s t : State} {w : Nat} (takes : Takes turns s t)
    (quiet : ∀ turn ∈ turns, QuietTurn turn) (full : s.FullInv) (idle : s.phase = .idle) (offered : s.pending = [w])
    (decoded : decode s.cfg w = .command .showFrame) (done : t.pending = []) : t.ShowsLast := by
  have course : t = s ∨ t.ShowsLast := by
    refine takes.keeps (P := fun u => u = s ∨ u.ShowsLast) (fun turn listed u v before moves => ?_) (.inl rfl)
    obtain rfl | shows := before
    · exact quietTurn_starts_show (quiet turn listed) full idle offered decoded moves
    · exact .inr (quietTurn_keeps_showsLast (quiet turn listed) shows moves)
  refine course.resolve_left ?_
  rintro rfl
  simp [offered] at done

theorem Takes.inputs {turns : List Turn} {s t : State} (takes : Takes turns s t) :
    t.sched = s.sched ∧ t.tick = s.tick :=
  takes.keeps (P := fun u => u.sched = s.sched ∧ u.tick = s.tick)
    (fun _ _ _ _ ⟨sched, tick⟩ moves =>
      ⟨(runTurn_inputs moves).1.trans sched, (runTurn_inputs moves).2.trans tick⟩) ⟨rfl, rfl⟩

/-- Enough fair rounds do all of an agenda to which HOST adds nothing. -/
theorem fairRounds_finish {rounds : List (List Turn)} (fair : ∀ round ∈ rounds, FairRound round) {s : State}
    {commands : List Instr} (agenda : s.Agenda commands []) (enough : s.workLeft commands ≤ rounds.length) :
    ∃ t, Takes rounds.flatten s t ∧ t.phase = .idle ∧ t.pending = [] ∧ Advance s commands t [] := by
  obtain ⟨t, left, takes, agendaEnd, advance, le⟩ := fairRounds_advance fair agenda
  rw [Nat.sub_eq_zero_of_le enough, Nat.le_zero] at le
  obtain ⟨idle, rfl⟩ := agendaEnd.finished le
  obtain ⟨words, pending, none⟩ := agendaEnd.offered
  rw [List.map_nil, List.map_eq_nil_iff] at none
  exact ⟨t, takes, idle, by rw [pending, none, List.append_nil], advance⟩

/-- Settles O49: the rounds do the agenda of one SHOW, and the SHOW that was accepted last is on display. -/
theorem fairTurnsCompleteAShow : Obligations.FairTurnsCompleteAShow := by
  intro s w rounds full idle offered decoded listed fair enough
  obtain ⟨-, ⟨-, rest, -⟩, -, -⟩ := full.1
  obtain ⟨-, -, -, -, -, -, -, safe⟩ := rest idle
  have agenda : s.Agenda [.showFrame] [] := ⟨full, safe, [w], offered, congrArg (fun d => [d]) decoded⟩
  have one : s.workLeft [.showFrame] = showSteps s.cfg := (workLeft_idle idle _).trans (Nat.one_mul _)
  obtain ⟨t, takes, idleEnd, pending, advance⟩ := fairRounds_finish fair agenda (one.le.trans enough)
  have quiet : ∀ turn ∈ rounds.flatten, QuietTurn turn := by
    intro turn listed
    obtain ⟨round, member, inside⟩ := List.mem_flatten.1 listed
    obtain ⟨-, -, -, quiet⟩ := fair round member
    exact quiet turn inside
  have shows : t.ShowsLast := takes.showsLast quiet full idle offered decoded pending
  obtain ⟨logical, wire⟩ := advance.done idleEnd idle
  obtain ⟨-, tick⟩ := takes.inputs
  have final := eq_of_displays full.1 shows.full.1 idle idleEnd advance.cfg logical (shows.display idleEnd)
  have last := (shows.display idleEnd).last
  have runs := takes.runFor
  rw [← listed] at runs ⊢
  refine ⟨_, t.acc.accum, runs, ?_, ?_⟩
  · injection logical with _ _ data
    rwa [advance.cfg, data] at last
  · rw [final]
    simp [wire, pending, tick, framesOf, State.logical, State.rendered]

end Sys2Proof.Machine

namespace Sys2Proof.Machine
/-! A SHOW in weakly fair runs (43_transfer.md R161, R173): while it waits to be accepted, and while it is in progress,
HOST may offer words, and each turn of another agent does a part of the SHOW or nothing. -/

/-- From `s` the machine has come to `t` without accepting a word: HOST has offered `words`, and of the SHOW in
progress, if there is one, a part is done. -/
structure State.InCourse (s t : State) (words : List Nat) : Prop where
  cfg : t.cfg = s.cfg
  logical : t.logical = s.logical
  cause : t.cause = s.cause
  inputs : t.sched = s.sched ∧ t.tick = s.tick
  pending : t.pending = s.pending ++ words
  output : t.wire ++ t.owed = s.wire ++ s.owed
  work : t.work ≤ s.work

theorem State.InCourse.refl (s : State) : s.InCourse s [] :=
  ⟨rfl, rfl, rfl, ⟨rfl, rfl⟩, (List.append_nil _).symm, rfl, Nat.le_refl _⟩

theorem State.InCourse.trans {s t u : State} {words words' : List Nat} (first : s.InCourse t words)
    (second : t.InCourse u words') : s.InCourse u (words ++ words') where
  cfg := second.cfg.trans first.cfg
  logical := second.logical.trans first.logical
  cause := second.cause.trans first.cause
  inputs := ⟨second.inputs.1.trans first.inputs.1, second.inputs.2.trans first.inputs.2⟩
  pending := by rw [second.pending, first.pending, List.append_assoc]
  output := second.output.trans first.output
  work := second.work.trans first.work

/-- The agenda of a block in which no command is awaited: the SHOW in progress, whatever words are pending. -/
theorem agenda_of_safe {s : State} (full : s.FullInv) (safe : s.safe) : s.Agenda [] s.pending :=
  ⟨full, safe, [], rfl, rfl⟩

/-- With no step left of a SHOW, none is in progress. -/
theorem idle_of_work_eq_zero {s : State} (full : s.FullInv) (safe : s.safe) (none : s.work = 0) : s.phase = .idle :=
  ((agenda_of_safe full safe).finished (by rw [State.workLeft, none, List.length_nil, Nat.zero_mul])).1

/-- While a SHOW is in progress, the turn of an agent with an enabled step is a step of the SHOW. -/
theorem runTurn_performs {turn : Turn} {agent : FairAgent} {s t : State} (full : s.FullInv) (safe : s.safe)
    (busy : s.phase ≠ .idle) (agentOf : fairAgentOf turn = some agent) (ready : s.enabled agent = true)
    (noError : DrawsNoError turn s) (moves : runTurn turn s = .next t) : s.Performs t := by
  obtain ⟨left, ⟨-, safeEnd, words, offered, decoded⟩, advance, less⟩ :=
    runTurn_proceeds (agenda_of_safe full safe) (absurd · busy) agentOf ready noError moves
  have pending : t.pending = s.pending := by
    rw [runTurn_pending busy moves, offeredBy_of_agent agentOf, List.append_nil]
  have none : words = [] := List.append_left_eq_self.1 (offered.symm.trans pending)
  obtain rfl : left = [] := by simpa [none] using decoded
  exact {
    cfg := advance.cfg
    logical := advance.logical
    cause := safeEnd.trans safe.symm
    pending := pending
    output := by simpa [framesOf] using advance.log
    work := by simpa [State.workLeft] using less }

/-- A turn that accepts no word. -/
theorem runTurn_inCourse {turn : Turn} {s t : State} (full : s.FullInv) (safe : s.safe)
    (noError : DrawsNoError turn s) (accepts : s.phase = .idle → fairAgentOf turn ≠ some .ctrl)
    (moves : runTurn turn s = .next t) : s.InCourse t (offeredBy turn) := by
  cases agentOf : fairAgentOf turn with
  | none =>
    cases turn with
    | host w =>
      cases moves
      exact ⟨rfl, rfl, rfl, ⟨rfl, rfl⟩, rfl, rfl, Nat.le_refl _⟩
    | ctrl | chan | port => cases agentOf
  | some agent =>
    by_cases ready : s.enabled agent = true
    · have busy : s.phase ≠ .idle := by
        intro idle
        obtain ⟨rfl, -⟩ := enabled_of_idle full.1 idle ready
        exact accepts idle agentOf
      have performs : s.Performs t := runTurn_performs full safe busy agentOf ready noError moves
      exact ⟨performs.cfg, performs.logical, performs.cause, runTurn_inputs moves, runTurn_pending busy moves,
        performs.output, performs.work.le⟩
    · rw [runTurn_of_disabled agentOf noError ready moves, offeredBy_of_agent agentOf]
      exact .refl s

theorem OfferedBetween.append {turns : Nat → Turn} {k j m : Nat} {words words' : List Nat}
    (first : OfferedBetween turns k j words) (second : OfferedBetween turns j m words') (le : k ≤ j) (le' : j ≤ m) :
    OfferedBetween turns k m (words ++ words') := by
  intro word mem
  obtain mem | mem := List.mem_append.1 mem
  · exact first.mono le' word mem
  · obtain ⟨i, after, before, turn⟩ := second word mem
    exact ⟨i, le.trans after, before, turn⟩

theorem offeredBetween_succ (turns : Nat → Turn) (j : Nat) :
    OfferedBetween turns j (j + 1) (offeredBy (turns j)) := by
  intro word mem
  cases turn : turns j with
  | host w =>
    rw [turn, offeredBy, List.mem_singleton] at mem
    exact ⟨j, Nat.le_refl j, Nat.lt_succ_self j, mem ▸ turn⟩
  | ctrl | chan | port =>
    rw [turn] at mem
    cases mem

theorem ctrl_of_agent {turn : Turn} (agentOf : fairAgentOf turn = some .ctrl) :
    ∃ flushErr, turn = .ctrl flushErr := by
  cases turn with
  | ctrl flushErr => exact ⟨flushErr, rfl⟩
  | host | chan | port => cases agentOf

/-- What holds at some moment from `start` on holds at a first one. -/
theorem exists_first_moment {P : Nat → Prop} {start i : Nat} (later : start ≤ i) (holds : P i) :
    ∃ j, start ≤ j ∧ P j ∧ ∀ k, start ≤ k → k < j → ¬ P k := by
  classical
  have moment : ∃ j, start ≤ j ∧ P j := ⟨i, later, holds⟩
  obtain ⟨le, first⟩ := Nat.find_spec moment
  exact ⟨_, le, first, fun k after before now => Nat.find_min moment before ⟨after, now⟩⟩

section WeaklyFairRun
variable {turns : Nat → Turn} {states : Nat → State} {start : Nat}

/-- A run in which no word is accepted. -/
theorem IsRun.inCourse (run : IsRun turns states) (full : (states start).FullInv) (safe : (states start).safe)
    (noErrors : NoFlushError turns states start) {m : Nat} (le : start ≤ m)
    (accepts : ∀ j, start ≤ j → j < m → (states j).phase = .idle → fairAgentOf (turns j) ≠ some .ctrl) :
    ∃ words, (states start).InCourse (states m) words ∧ OfferedBetween turns start m words := by
  induction m, le using Nat.le_induction with
  | base => exact ⟨[], .refl _, nofun⟩
  | succ m le ih =>
    obtain ⟨words, course, offered⟩ := ih fun j after before => accepts j after (Nat.lt_succ_of_lt before)
    have next : (states m).InCourse (states (m + 1)) (offeredBy (turns m)) :=
      runTurn_inCourse (run.fullInv full le) (course.cause.trans safe) (noErrors m le)
        (accepts m le (Nat.lt_succ_self m)) (run m)
    exact ⟨_, course.trans next, offered.append (offeredBetween_succ turns m) le (Nat.le_succ m)⟩

theorem NoFlushError.mono {j : Nat} (noErrors : NoFlushError turns states start) (le : start ≤ j) :
    NoFlushError turns states j :=
  fun i after => noErrors i (le.trans after)

/-- The SHOW in progress ends: at a moment with the fewest steps left an agent has an enabled step, and by the moment
at which it has taken one fewer are left (R173). -/
theorem IsRun.becomes_idle (run : IsRun turns states) (fair : WeaklyFair turns states) (full : (states start).FullInv)
    (safe : (states start).safe) (noErrors : NoFlushError turns states start) :
    ∃ m, start ≤ m ∧ (states m).phase = .idle := by
  by_contra never
  push Not at never
  have course {k m : Nat} (after : start ≤ k) (le : k ≤ m) (safe : (states k).safe) :
      ∃ words, (states k).InCourse (states m) words ∧ OfferedBetween turns k m words :=
    run.inCourse (run.fullInv full after) safe (noErrors.mono after) le
      fun j later _ idle => absurd idle (never j (after.trans later))
  have safeAt {k : Nat} (after : start ≤ k) : (states k).safe := by
    obtain ⟨words, waits, -⟩ := course (Nat.le_refl start) after safe
    exact waits.cause.trans safe
  obtain ⟨k, after, fewest⟩ :=
    exists_minimalFor_of_wellFoundedLT (start ≤ ·) (fun k => (states k).work) ⟨start, Nat.le_refl start⟩
  obtain ⟨agent, ready⟩ := (agenda_of_safe (run.fullInv full after) (safeAt after)).some_enabled
    fun finished => never k after finished.1
  obtain ⟨j, later, readyThen, turn⟩ := weaklyFair_taken fair ready fun i later enabled other =>
    enabled_stays (run.fullInv full (after.trans later)).1 (run i) enabled other
  have afterThen : start ≤ j := after.trans later
  obtain ⟨words, waits, -⟩ := course after later (safeAt after)
  have performs : (states j).Performs (states (j + 1)) :=
    runTurn_performs (run.fullInv full afterThen) (safeAt afterThen) (never j afterThen) turn readyThen
      (noErrors j afterThen) (run j)
  have fewer : (states (j + 1)).work < (states k).work := performs.work.trans_le waits.work
  exact absurd (fewest (Nat.le_succ_of_le afterThen) fewer.le) (Nat.not_le.2 fewer)

/-- A word that is offered in `IDLE` is accepted: CTRL has a turn, and the block is still idle at its first one. -/
theorem IsRun.accepts (run : IsRun turns states) (fair : WeaklyFair turns states) (full : (states start).FullInv)
    (safe : (states start).safe) (noErrors : NoFlushError turns states start) (idle : (states start).phase = .idle)
    (offered : (states start).pending ≠ []) :
    ∃ j words flushErr, start ≤ j ∧ turns j = .ctrl flushErr ∧ (states j).phase = .idle ∧
      (states start).InCourse (states j) words ∧ OfferedBetween turns start j words := by
  have ready : (states start).enabled .ctrl = true := (enabled_ctrl _).2 (.inl ⟨idle, offered⟩)
  obtain ⟨i, later, -, taken⟩ := weaklyFair_taken fair ready fun i later enabled other =>
    enabled_stays (run.fullInv full later).1 (run i) enabled other
  obtain ⟨j, le, turn, first⟩ := exists_first_moment (P := fun j => fairAgentOf (turns j) = some .ctrl) later taken
  obtain ⟨words, course, since⟩ := run.inCourse full safe noErrors le fun i later before _ => first i later before
  have none : (states j).work = 0 := Nat.le_zero.1 (work_idle idle ▸ course.work)
  obtain ⟨flushErr, ctrl⟩ := ctrl_of_agent turn
  exact ⟨j, words, flushErr, le, ctrl, idle_of_work_eq_zero (run.fullInv full le) (course.cause.trans safe) none,
    course, since⟩

/-- A SHOW in progress comes to be on display, at the first moment at which the block is idle. -/
theorem IsRun.displays (run : IsRun turns states) (fair : WeaklyFair turns states) (full : (states start).FullInv)
    (safe : (states start).safe) (noErrors : NoFlushError turns states start) (busy : (states start).phase ≠ .idle) :
    ∃ m words, start ≤ m ∧ (states m).phase = .idle ∧ (states m).Displays ∧
      (states start).InCourse (states m) words ∧ OfferedBetween turns start m words := by
  obtain ⟨i, later, idleThen⟩ := run.becomes_idle fair full safe noErrors
  obtain ⟨m, le, idle, first⟩ := exists_first_moment (P := fun j => (states j).phase = .idle) later idleThen
  obtain ⟨words, course, since⟩ := run.inCourse full safe noErrors le fun j after before idle =>
    absurd idle (first j after before)
  refine ⟨m, words, le, idle, ?_, course, since⟩
  have after : start < m := lt_of_le_of_ne le (by rintro rfl; exact busy idle)
  obtain ⟨d, rfl⟩ := Nat.exists_eq_add_of_lt after
  have before : start ≤ start + d := Nat.le_add_right start d
  exact displays_of_return (run.fullInv full before).2.2 (first _ before (Nat.lt_succ_self _)) (run _) idle

end WeaklyFairRun

/-- From the idle state `s` with a SHOW offered, through the idle state `u` that accepts it, to the idle state `t` that
has it on display: `t` is as R161 says. -/
theorem eq_of_shown {s u t : State} {rest words later : List Nat} (inv : s.Inv) (inv' : t.Inv)
    (idle : s.phase = .idle) (accepting : u.phase = .idle) (idle' : t.phase = .idle) (waits : s.InCourse u words)
    (shows : (take { u with pending := rest ++ words }).InCourse t later) (display : t.Displays) :
    t = { s with
      bits := s.rendered, wire := s.wire ++ frame s.rendered, acc := { s.acc with accum := t.acc.accum },
      xsub := .dmaWait, pending := rest ++ (words ++ later) } := by
  have cfg : t.cfg = s.cfg := shows.cfg.trans waits.cfg
  have logical : t.logical = s.logical := shows.logical.trans waits.logical
  have quiet : u.wire = s.wire := by simpa [owed_idle accepting, owed_idle idle] using waits.output
  have rendered : (take { u with pending := rest ++ words }).rendered = s.rendered :=
    rendered_of_logical waits.cfg waits.logical
  have wire : t.wire = s.wire ++ frame s.rendered := by
    have output := shows.output
    rwa [owed_idle idle', List.append_nil, owed_render rfl, rendered, take_wire, quiet] at output
  have pending : t.pending = rest ++ (words ++ later) := shows.pending.trans (List.append_assoc ..)
  have sched : t.sched = s.sched := shows.inputs.1.trans waits.inputs.1
  have tick : t.tick = s.tick := shows.inputs.2.trans waits.inputs.2
  refine (eq_of_displays inv inv' idle idle' cfg logical display).trans ?_
  rw [wire, pending, sched, tick]

/-- Settles O53: the run waits until the SHOW is accepted, and then is in its course until it is on display. -/
theorem weaklyFairRunsCompleteAShow : Obligations.WeaklyFairRunsCompleteAShow := by
  intro turns states k w rest run fair noErrors full idle offered decoded
  obtain ⟨-, ⟨-, resting, -⟩, -, -⟩ := full.1
  obtain ⟨-, -, -, -, -, -, -, safe⟩ := resting idle
  obtain ⟨j, words, flushErr, le, turn, accepting, waits, since⟩ :=
    run.accepts fair full safe noErrors idle (by simp [offered])
  have taken : states (j + 1) = take { states j with pending := rest ++ words } := by
    have pending : (states j).pending = w :: (rest ++ words) := by rw [waits.pending, offered, List.cons_append]
    have moves := run j
    rw [turn, runTurn_show accepting pending (waits.cfg.symm ▸ decoded)] at moves
    exact (Host.Outcome.next.inj moves).symm
  have after : k ≤ j + 1 := Nat.le_succ_of_le le
  have safeThen : (states (j + 1)).safe := by rw [taken]; exact waits.cause.trans safe
  have busy : (states (j + 1)).phase ≠ .idle := by rw [taken]; exact nofun
  obtain ⟨m, later, later_le, idleEnd, display, shows, since'⟩ :=
    run.displays fair (run.fullInv full after) safeThen (noErrors.mono after) busy
  have fullEnd : (states m).FullInv := run.fullInv full (after.trans later_le)
  have final := eq_of_shown full.1 fullEnd.1 idle accepting idleEnd waits (taken ▸ shows) display
  refine ⟨m, words ++ later, (states m).acc.accum, Nat.lt_of_lt_of_le (Nat.lt_succ_of_le le) later_le, ?_,
    (since.mono (Nat.le_succ j)).append since' after later_le, final⟩
  have last := display.last
  rwa [final] at last

end Sys2Proof.Machine

namespace Sys2Proof.Machine
/-! The fault ACCEL_UNCONFIGURED (60_exceptions.md R183, R189). -/

/-- An unconfigured accelerator answers no lookup, whatever the byte (R108). -/
theorem lookup_of_unconfigured {a : Accel} (unconfigured : a.cfgDone = false) (b : Byte) :
    lookup a b = .unconfigured := by
  rw [lookup, unconfigured, if_neg Bool.false_ne_true]

/-- A render step whose data byte is there raises the fault when the accelerator is not configured (R183). -/
theorem renderStep_of_unconfigured {s : State} (inside : s.ri < s.data.length)
    (unconfigured : s.acc.cfgDone = false) : renderStep s = .next (raise .accelUnconfigured s) := by
  simp only [renderStep, List.getElem?_eq_getElem inside, lookup_of_unconfigured unconfigured]

/-- Settles O24: the turn of CTRL is a render step, and its lookup finds the accelerator unconfigured. -/
theorem unconfiguredLookupFaults : Obligations.UnconfiguredLookupFaults := by
  intro s flushErr rendering turn inside more unconfigured
  rw [step_turn turn, runTurn_render (by simpa using rendering) (by simpa using more),
    renderStep_of_unconfigured (by simpa using inside) (by simpa using unconfigured), raise]

end Sys2Proof.Machine

namespace Sys2Proof.Machine
/-! CONSTRUCT (70_reset_and_hazards.md R206, R207). -/

/-- CONFIGURE leaves the accelerator as reset does, in every configuration, but for the accumulator: both are
configured, and no other field is free. -/
theorem configure_eq_resetOf_acc (c : Config) (a : Accel) :
    configure a = { (State.resetOf c).acc with accum := a.accum } :=
  (resetOf_standing c).configured.eq (configure_configured a)

/-- Settles O42: CONFIGURE gives the accelerator of the reset state, and CONSTRUCT writes the reset value to every other
element but the log and the inputs. -/
theorem constructGivesTheResetState : Obligations.ConstructGivesTheResetState := by
  intro s
  rw [construct, configure_eq_resetOf_acc s.cfg]
  rfl

end Sys2Proof.Machine
